-- ==== Sys2Proof/Word.lean ====
section
/-! DEFINITION. The machine's words: the vectors of spec/00_scope.md R8 and their plainest reading. -/

namespace Sys2Proof

/-- A 32-bit vector: a register value, the pc, an address, an instruction word (R8). -/
abbrev Word := BitVec 32

/-- A byte of memory, 8 bits (R8). -/
abbrev Byte := BitVec 8

/-- A register number: the 5-bit field `rd`, `rs1` or `rs2`; all 32 values name a register (R90). -/
abbrev RegIdx := BitVec 5

end Sys2Proof
end

