-- ==== Sys2Proof/Syntax.lean ====
section
/-! DEFINITION. The 40 instructions of the block (spec/00_scope.md R3), one constructor per row of
spec/opcode_table.json, and what the decoder answers for every other word. -/

namespace Sys2Proof

/-- An instruction with its operands as the encoding carries them (30_encoding.md R82).

`imm20` is `w[31:12]` (R87); `imm` of an I or S layout is the 12-bit immediate field (R83, R85); `off` is the byte offset
of a branch (13 bits, R86) or of JAL (21 bits, R88), whose bit 0 is zero (WellFormed.lean); `shamt` is `w[24:20]` (R89).
FENCE, ECALL and EBREAK carry the fields the block never checks and never reads (R99), so that a word is its instruction
and nothing of it is lost. -/
inductive Instr where
  | lui (rd : RegIdx) (imm20 : BitVec 20)
  | auipc (rd : RegIdx) (imm20 : BitVec 20)
  | jal (rd : RegIdx) (off : BitVec 21)
  | jalr (rd rs1 : RegIdx) (imm : BitVec 12)
  | beq (rs1 rs2 : RegIdx) (off : BitVec 13)
  | bne (rs1 rs2 : RegIdx) (off : BitVec 13)
  | blt (rs1 rs2 : RegIdx) (off : BitVec 13)
  | bge (rs1 rs2 : RegIdx) (off : BitVec 13)
  | bltu (rs1 rs2 : RegIdx) (off : BitVec 13)
  | bgeu (rs1 rs2 : RegIdx) (off : BitVec 13)
  | lb (rd rs1 : RegIdx) (imm : BitVec 12)
  | lh (rd rs1 : RegIdx) (imm : BitVec 12)
  | lw (rd rs1 : RegIdx) (imm : BitVec 12)
  | lbu (rd rs1 : RegIdx) (imm : BitVec 12)
  | lhu (rd rs1 : RegIdx) (imm : BitVec 12)
  | sb (rs1 rs2 : RegIdx) (imm : BitVec 12)
  | sh (rs1 rs2 : RegIdx) (imm : BitVec 12)
  | sw (rs1 rs2 : RegIdx) (imm : BitVec 12)
  | addi (rd rs1 : RegIdx) (imm : BitVec 12)
  | slti (rd rs1 : RegIdx) (imm : BitVec 12)
  | sltiu (rd rs1 : RegIdx) (imm : BitVec 12)
  | xori (rd rs1 : RegIdx) (imm : BitVec 12)
  | ori (rd rs1 : RegIdx) (imm : BitVec 12)
  | andi (rd rs1 : RegIdx) (imm : BitVec 12)
  | slli (rd rs1 : RegIdx) (shamt : BitVec 5)
  | srli (rd rs1 : RegIdx) (shamt : BitVec 5)
  | srai (rd rs1 : RegIdx) (shamt : BitVec 5)
  | add (rd rs1 rs2 : RegIdx)
  | sub (rd rs1 rs2 : RegIdx)
  | sll (rd rs1 rs2 : RegIdx)
  | slt (rd rs1 rs2 : RegIdx)
  | sltu (rd rs1 rs2 : RegIdx)
  | xor (rd rs1 rs2 : RegIdx)
  | srl (rd rs1 rs2 : RegIdx)
  | sra (rd rs1 rs2 : RegIdx)
  | or (rd rs1 rs2 : RegIdx)
  | and (rd rs1 rs2 : RegIdx)
  | fence (rd rs1 : RegIdx) (imm : BitVec 12)
  | ecall (rd rs1 : RegIdx)
  | ebreak (rd rs1 : RegIdx)
  deriving DecidableEq, Repr

/-- Why a word is not an instruction: the level at which `decode` failed and the offending field's value
(30_encoding.md R100, 60_exceptions.md R261). No numeric code beyond the field itself (93 U15). -/
inductive DecodeReject where
  /-- Unknown `w[6:0]`. -/
  | opcode (code : BitVec 7)
  /-- A `w[14:12]` the opcode does not use. -/
  | funct3 (code : BitVec 3)
  /-- A `w[31:25]` the opcode and funct3 do not use. -/
  | funct7 (code : BitVec 7)
  /-- A `w[31:20]` that is neither ECALL's nor EBREAK's. -/
  | funct12 (code : BitVec 12)
  deriving DecidableEq, Repr

end Sys2Proof
end

