-- ==== Sys2Proof/WellFormed.lean ====
section
/-! DEFINITION. Which instruction terms have an encoding.

Every register number and every 12-bit, 20-bit or 5-bit immediate is admitted (spec/30_encoding.md R90, R99); a branch or
JAL offset has bit 0 zero, "LSB implicitly 0" (R86, R88). -/

namespace Sys2Proof

/-- A branch offset is even (R86). -/
abbrev branchOffsetEven (off : BitVec 13) : Bool := off.getLsbD 0 == false

/-- A JAL offset is even (R88). -/
abbrev jumpOffsetEven (off : BitVec 21) : Bool := off.getLsbD 0 == false

/-- The instruction has an encoding. -/
def Instr.wf : Instr → Bool
  | .jal _ off => jumpOffsetEven off
  | .beq _ _ off => branchOffsetEven off
  | .bne _ _ off => branchOffsetEven off
  | .blt _ _ off => branchOffsetEven off
  | .bge _ _ off => branchOffsetEven off
  | .bltu _ _ off => branchOffsetEven off
  | .bgeu _ _ off => branchOffsetEven off
  | .lui _ _ => true
  | .auipc _ _ => true
  | .jalr _ _ _ => true
  | .lb _ _ _ => true
  | .lh _ _ _ => true
  | .lw _ _ _ => true
  | .lbu _ _ _ => true
  | .lhu _ _ _ => true
  | .sb _ _ _ => true
  | .sh _ _ _ => true
  | .sw _ _ _ => true
  | .addi _ _ _ => true
  | .slti _ _ _ => true
  | .sltiu _ _ _ => true
  | .xori _ _ _ => true
  | .ori _ _ _ => true
  | .andi _ _ _ => true
  | .slli _ _ _ => true
  | .srli _ _ _ => true
  | .srai _ _ _ => true
  | .add _ _ _ => true
  | .sub _ _ _ => true
  | .sll _ _ _ => true
  | .slt _ _ _ => true
  | .sltu _ _ _ => true
  | .xor _ _ _ => true
  | .srl _ _ _ => true
  | .sra _ _ _ => true
  | .or _ _ _ => true
  | .and _ _ _ => true
  | .fence _ _ _ => true
  | .ecall _ _ => true
  | .ebreak _ _ => true

end Sys2Proof
end

