-- ==== Sys2Proof/Decode.lean ====
section
/-! DEFINITION. The bit-field decoder (spec/30_encoding.md) and, after it, the encoder.

The numeric opcode and function-field values are those of R95 to R98 (the spec's own choice D4; log 6). -/

namespace Sys2Proof

/-! ### Field extractors (R81): total on every 32-bit word -/

def opcodeOf (w : Word) : BitVec 7 := w.extractLsb' 0 7
def rdOf (w : Word) : RegIdx := w.extractLsb' 7 5
def funct3Of (w : Word) : BitVec 3 := w.extractLsb' 12 3
def rs1Of (w : Word) : RegIdx := w.extractLsb' 15 5
def rs2Of (w : Word) : RegIdx := w.extractLsb' 20 5
def funct7Of (w : Word) : BitVec 7 := w.extractLsb' 25 7
def funct12Of (w : Word) : BitVec 12 := w.extractLsb' 20 12

/-! ### Immediate fields, not yet extended -/

/-- `w[31:20]` (R83). -/
def immIOf (w : Word) : BitVec 12 := w.extractLsb' 20 12
/-- `{w[31:25], w[11:7]}` (R85). -/
def immSOf (w : Word) : BitVec 12 := w.extractLsb' 25 7 ++ w.extractLsb' 7 5
/-- `{w[31], w[7], w[30:25], w[11:8], 0}` (R86). -/
def offBOf (w : Word) : BitVec 13 :=
  w.extractLsb' 31 1 ++ w.extractLsb' 7 1 ++ w.extractLsb' 25 6 ++ w.extractLsb' 8 4 ++ 0#1
/-- `w[31:12]` (R87). -/
def imm20Of (w : Word) : BitVec 20 := w.extractLsb' 12 20
/-- `{w[31], w[19:12], w[20], w[30:21], 0}` (R88). -/
def offJOf (w : Word) : BitVec 21 :=
  w.extractLsb' 31 1 ++ w.extractLsb' 12 8 ++ w.extractLsb' 20 1 ++ w.extractLsb' 21 10 ++ 0#1
/-- `w[24:20]` (R89; 90_conflicts.md C3, log 9). -/
def shamtOf (w : Word) : BitVec 5 := w.extractLsb' 20 5

/-! ### The groups of the opcode map (R96 to R98) -/

/-- An instruction or the reason there is none. -/
abbrev Decoded := Except DecodeReject Instr

/-- JALR, opcode 0x67. -/
def decodeJalr (w : Word) : Decoded :=
  if funct3Of w = 0b000#3 then .ok (.jalr (rdOf w) (rs1Of w) (immIOf w))
  else .error (.funct3 (funct3Of w))

/-- BRANCH, opcode 0x63. -/
def decodeBranch (w : Word) : Decoded :=
  if funct3Of w = 0b000#3 then .ok (.beq (rs1Of w) (rs2Of w) (offBOf w))
  else if funct3Of w = 0b001#3 then .ok (.bne (rs1Of w) (rs2Of w) (offBOf w))
  else if funct3Of w = 0b100#3 then .ok (.blt (rs1Of w) (rs2Of w) (offBOf w))
  else if funct3Of w = 0b101#3 then .ok (.bge (rs1Of w) (rs2Of w) (offBOf w))
  else if funct3Of w = 0b110#3 then .ok (.bltu (rs1Of w) (rs2Of w) (offBOf w))
  else if funct3Of w = 0b111#3 then .ok (.bgeu (rs1Of w) (rs2Of w) (offBOf w))
  else .error (.funct3 (funct3Of w))

/-- LOAD, opcode 0x03. -/
def decodeLoad (w : Word) : Decoded :=
  if funct3Of w = 0b000#3 then .ok (.lb (rdOf w) (rs1Of w) (immIOf w))
  else if funct3Of w = 0b001#3 then .ok (.lh (rdOf w) (rs1Of w) (immIOf w))
  else if funct3Of w = 0b010#3 then .ok (.lw (rdOf w) (rs1Of w) (immIOf w))
  else if funct3Of w = 0b100#3 then .ok (.lbu (rdOf w) (rs1Of w) (immIOf w))
  else if funct3Of w = 0b101#3 then .ok (.lhu (rdOf w) (rs1Of w) (immIOf w))
  else .error (.funct3 (funct3Of w))

/-- STORE, opcode 0x23. -/
def decodeStore (w : Word) : Decoded :=
  if funct3Of w = 0b000#3 then .ok (.sb (rs1Of w) (rs2Of w) (immSOf w))
  else if funct3Of w = 0b001#3 then .ok (.sh (rs1Of w) (rs2Of w) (immSOf w))
  else if funct3Of w = 0b010#3 then .ok (.sw (rs1Of w) (rs2Of w) (immSOf w))
  else .error (.funct3 (funct3Of w))

/-- OP-IMM, opcode 0x13; funct7 is a key only under funct3 001 and 101 (R97). -/
def decodeOpImm (w : Word) : Decoded :=
  if funct3Of w = 0b000#3 then .ok (.addi (rdOf w) (rs1Of w) (immIOf w))
  else if funct3Of w = 0b010#3 then .ok (.slti (rdOf w) (rs1Of w) (immIOf w))
  else if funct3Of w = 0b011#3 then .ok (.sltiu (rdOf w) (rs1Of w) (immIOf w))
  else if funct3Of w = 0b100#3 then .ok (.xori (rdOf w) (rs1Of w) (immIOf w))
  else if funct3Of w = 0b110#3 then .ok (.ori (rdOf w) (rs1Of w) (immIOf w))
  else if funct3Of w = 0b111#3 then .ok (.andi (rdOf w) (rs1Of w) (immIOf w))
  else if funct3Of w = 0b001#3 then
    if funct7Of w = 0b0000000#7 then .ok (.slli (rdOf w) (rs1Of w) (shamtOf w))
    else .error (.funct7 (funct7Of w))
  else
    if funct7Of w = 0b0000000#7 then .ok (.srli (rdOf w) (rs1Of w) (shamtOf w))
    else if funct7Of w = 0b0100000#7 then .ok (.srai (rdOf w) (rs1Of w) (shamtOf w))
    else .error (.funct7 (funct7Of w))

/-- OP, opcode 0x33: the pair funct3, funct7 selects (R97; strict, 90_conflicts.md C6, log 10). -/
def decodeOp (w : Word) : Decoded :=
  if funct7Of w = 0b0000000#7 then
    if funct3Of w = 0b000#3 then .ok (.add (rdOf w) (rs1Of w) (rs2Of w))
    else if funct3Of w = 0b001#3 then .ok (.sll (rdOf w) (rs1Of w) (rs2Of w))
    else if funct3Of w = 0b010#3 then .ok (.slt (rdOf w) (rs1Of w) (rs2Of w))
    else if funct3Of w = 0b011#3 then .ok (.sltu (rdOf w) (rs1Of w) (rs2Of w))
    else if funct3Of w = 0b100#3 then .ok (.xor (rdOf w) (rs1Of w) (rs2Of w))
    else if funct3Of w = 0b101#3 then .ok (.srl (rdOf w) (rs1Of w) (rs2Of w))
    else if funct3Of w = 0b110#3 then .ok (.or (rdOf w) (rs1Of w) (rs2Of w))
    else .ok (.and (rdOf w) (rs1Of w) (rs2Of w))
  else if funct7Of w = 0b0100000#7 then
    if funct3Of w = 0b000#3 then .ok (.sub (rdOf w) (rs1Of w) (rs2Of w))
    else if funct3Of w = 0b101#3 then .ok (.sra (rdOf w) (rs1Of w) (rs2Of w))
    else .error (.funct7 (funct7Of w))
  else .error (.funct7 (funct7Of w))

/-- MISC-MEM, opcode 0x0F; rd, rs1 and bits 31:20 of FENCE are not checked (R99). -/
def decodeMiscMem (w : Word) : Decoded :=
  if funct3Of w = 0b000#3 then .ok (.fence (rdOf w) (rs1Of w) (immIOf w))
  else .error (.funct3 (funct3Of w))

/-- SYSTEM, opcode 0x73; rd and rs1 are not checked (R98, R99). -/
def decodeSystem (w : Word) : Decoded :=
  if funct3Of w = 0b000#3 then
    if funct12Of w = 0x000#12 then .ok (.ecall (rdOf w) (rs1Of w))
    else if funct12Of w = 0x001#12 then .ok (.ebreak (rdOf w) (rs1Of w))
    else .error (.funct12 (funct12Of w))
  else .error (.funct3 (funct3Of w))

/-- `decode(w)` (R100): every 32-bit word is one instruction or one decode error. -/
def decode (w : Word) : Decoded :=
  if opcodeOf w = 0x37#7 then .ok (.lui (rdOf w) (imm20Of w))
  else if opcodeOf w = 0x17#7 then .ok (.auipc (rdOf w) (imm20Of w))
  else if opcodeOf w = 0x6F#7 then .ok (.jal (rdOf w) (offJOf w))
  else if opcodeOf w = 0x67#7 then decodeJalr w
  else if opcodeOf w = 0x63#7 then decodeBranch w
  else if opcodeOf w = 0x03#7 then decodeLoad w
  else if opcodeOf w = 0x23#7 then decodeStore w
  else if opcodeOf w = 0x13#7 then decodeOpImm w
  else if opcodeOf w = 0x33#7 then decodeOp w
  else if opcodeOf w = 0x0F#7 then decodeMiscMem w
  else if opcodeOf w = 0x73#7 then decodeSystem w
  else .error (.opcode (opcodeOf w))

/-! ### Bytes and words: instructions are 4 bytes, little-endian (R80; 20_memory.md R53) -/

/-- The word whose bytes, lowest address first, are `b0 b1 b2 b3`. -/
def wordOfBytes (b0 b1 b2 b3 : Byte) : Word := b3 ++ b2 ++ b1 ++ b0

/-- The four bytes of a word, lowest address first. -/
def bytesOfWord (w : Word) : List Byte :=
  [w.extractLsb' 0 8, w.extractLsb' 8 8, w.extractLsb' 16 8, w.extractLsb' 24 8]

/-- Decodes the instruction at the front of a byte string and gives the rest; `none` where fewer than four bytes are
left, since every instruction is 4 bytes (R80). Total on any bytes. -/
def decodeBytes : List Byte → Option (Decoded × List Byte)
  | b0 :: b1 :: b2 :: b3 :: rest => some (decode (wordOfBytes b0 b1 b2 b3), rest)
  | _ => none

/-- A word of spec/opcode_table.json, its bits above `nbits` zero. -/
def tableWord (nbits w : Nat) : Word := BitVec.ofNat 32 (w % 2 ^ nbits)

/-- The instruction the decoder reads from a row's word, through the bytes as the hardware stores them. -/
def decodeTableWord (nbits w : Nat) : Option Instr :=
  match decodeBytes (bytesOfWord (tableWord nbits w)) with
  | some (.ok i, _) => some i
  | _ => none

/-! ### The encoder, from the layouts of R82 and the values of R95 to R98 -/

def encR (funct7 : BitVec 7) (rs2 rs1 : RegIdx) (funct3 : BitVec 3) (rd : RegIdx) (op : BitVec 7) : Word :=
  funct7 ++ rs2 ++ rs1 ++ funct3 ++ rd ++ op

def encI (imm : BitVec 12) (rs1 : RegIdx) (funct3 : BitVec 3) (rd : RegIdx) (op : BitVec 7) : Word :=
  imm ++ rs1 ++ funct3 ++ rd ++ op

def encS (imm : BitVec 12) (rs2 rs1 : RegIdx) (funct3 : BitVec 3) (op : BitVec 7) : Word :=
  imm.extractLsb' 5 7 ++ rs2 ++ rs1 ++ funct3 ++ imm.extractLsb' 0 5 ++ op

def encB (off : BitVec 13) (rs2 rs1 : RegIdx) (funct3 : BitVec 3) (op : BitVec 7) : Word :=
  off.extractLsb' 12 1 ++ off.extractLsb' 5 6 ++ rs2 ++ rs1 ++ funct3
    ++ off.extractLsb' 1 4 ++ off.extractLsb' 11 1 ++ op

def encU (imm20 : BitVec 20) (rd : RegIdx) (op : BitVec 7) : Word := imm20 ++ rd ++ op

def encJ (off : BitVec 21) (rd : RegIdx) (op : BitVec 7) : Word :=
  off.extractLsb' 20 1 ++ off.extractLsb' 1 10 ++ off.extractLsb' 11 1 ++ off.extractLsb' 12 8 ++ rd ++ op

/-- The word of a well-formed instruction. -/
def encode : Instr → Word
  | .lui rd imm20 => encU imm20 rd 0x37#7
  | .auipc rd imm20 => encU imm20 rd 0x17#7
  | .jal rd off => encJ off rd 0x6F#7
  | .jalr rd rs1 imm => encI imm rs1 0b000#3 rd 0x67#7
  | .beq rs1 rs2 off => encB off rs2 rs1 0b000#3 0x63#7
  | .bne rs1 rs2 off => encB off rs2 rs1 0b001#3 0x63#7
  | .blt rs1 rs2 off => encB off rs2 rs1 0b100#3 0x63#7
  | .bge rs1 rs2 off => encB off rs2 rs1 0b101#3 0x63#7
  | .bltu rs1 rs2 off => encB off rs2 rs1 0b110#3 0x63#7
  | .bgeu rs1 rs2 off => encB off rs2 rs1 0b111#3 0x63#7
  | .lb rd rs1 imm => encI imm rs1 0b000#3 rd 0x03#7
  | .lh rd rs1 imm => encI imm rs1 0b001#3 rd 0x03#7
  | .lw rd rs1 imm => encI imm rs1 0b010#3 rd 0x03#7
  | .lbu rd rs1 imm => encI imm rs1 0b100#3 rd 0x03#7
  | .lhu rd rs1 imm => encI imm rs1 0b101#3 rd 0x03#7
  | .sb rs1 rs2 imm => encS imm rs2 rs1 0b000#3 0x23#7
  | .sh rs1 rs2 imm => encS imm rs2 rs1 0b001#3 0x23#7
  | .sw rs1 rs2 imm => encS imm rs2 rs1 0b010#3 0x23#7
  | .addi rd rs1 imm => encI imm rs1 0b000#3 rd 0x13#7
  | .slti rd rs1 imm => encI imm rs1 0b010#3 rd 0x13#7
  | .sltiu rd rs1 imm => encI imm rs1 0b011#3 rd 0x13#7
  | .xori rd rs1 imm => encI imm rs1 0b100#3 rd 0x13#7
  | .ori rd rs1 imm => encI imm rs1 0b110#3 rd 0x13#7
  | .andi rd rs1 imm => encI imm rs1 0b111#3 rd 0x13#7
  | .slli rd rs1 shamt => encR 0b0000000#7 shamt rs1 0b001#3 rd 0x13#7
  | .srli rd rs1 shamt => encR 0b0000000#7 shamt rs1 0b101#3 rd 0x13#7
  | .srai rd rs1 shamt => encR 0b0100000#7 shamt rs1 0b101#3 rd 0x13#7
  | .add rd rs1 rs2 => encR 0b0000000#7 rs2 rs1 0b000#3 rd 0x33#7
  | .sub rd rs1 rs2 => encR 0b0100000#7 rs2 rs1 0b000#3 rd 0x33#7
  | .sll rd rs1 rs2 => encR 0b0000000#7 rs2 rs1 0b001#3 rd 0x33#7
  | .slt rd rs1 rs2 => encR 0b0000000#7 rs2 rs1 0b010#3 rd 0x33#7
  | .sltu rd rs1 rs2 => encR 0b0000000#7 rs2 rs1 0b011#3 rd 0x33#7
  | .xor rd rs1 rs2 => encR 0b0000000#7 rs2 rs1 0b100#3 rd 0x33#7
  | .srl rd rs1 rs2 => encR 0b0000000#7 rs2 rs1 0b101#3 rd 0x33#7
  | .sra rd rs1 rs2 => encR 0b0100000#7 rs2 rs1 0b101#3 rd 0x33#7
  | .or rd rs1 rs2 => encR 0b0000000#7 rs2 rs1 0b110#3 rd 0x33#7
  | .and rd rs1 rs2 => encR 0b0000000#7 rs2 rs1 0b111#3 rd 0x33#7
  | .fence rd rs1 imm => encI imm rs1 0b000#3 rd 0x0F#7
  | .ecall rd rs1 => encI 0x000#12 rs1 0b000#3 rd 0x73#7
  | .ebreak rd rs1 => encI 0x001#12 rs1 0b000#3 rd 0x73#7

/-! ### The rows of spec/opcode_table.json -/

/-- The row of the table an instruction belongs to: its mask and its match. -/
def tableRow : Instr → Word × Word
  | .lui _ _ => (0x0000007F#32, 0x00000037#32)
  | .auipc _ _ => (0x0000007F#32, 0x00000017#32)
  | .jal _ _ => (0x0000007F#32, 0x0000006F#32)
  | .jalr _ _ _ => (0x0000707F#32, 0x00000067#32)
  | .beq _ _ _ => (0x0000707F#32, 0x00000063#32)
  | .bne _ _ _ => (0x0000707F#32, 0x00001063#32)
  | .blt _ _ _ => (0x0000707F#32, 0x00004063#32)
  | .bge _ _ _ => (0x0000707F#32, 0x00005063#32)
  | .bltu _ _ _ => (0x0000707F#32, 0x00006063#32)
  | .bgeu _ _ _ => (0x0000707F#32, 0x00007063#32)
  | .lb _ _ _ => (0x0000707F#32, 0x00000003#32)
  | .lh _ _ _ => (0x0000707F#32, 0x00001003#32)
  | .lw _ _ _ => (0x0000707F#32, 0x00002003#32)
  | .lbu _ _ _ => (0x0000707F#32, 0x00004003#32)
  | .lhu _ _ _ => (0x0000707F#32, 0x00005003#32)
  | .sb _ _ _ => (0x0000707F#32, 0x00000023#32)
  | .sh _ _ _ => (0x0000707F#32, 0x00001023#32)
  | .sw _ _ _ => (0x0000707F#32, 0x00002023#32)
  | .addi _ _ _ => (0x0000707F#32, 0x00000013#32)
  | .slti _ _ _ => (0x0000707F#32, 0x00002013#32)
  | .sltiu _ _ _ => (0x0000707F#32, 0x00003013#32)
  | .xori _ _ _ => (0x0000707F#32, 0x00004013#32)
  | .ori _ _ _ => (0x0000707F#32, 0x00006013#32)
  | .andi _ _ _ => (0x0000707F#32, 0x00007013#32)
  | .slli _ _ _ => (0xFE00707F#32, 0x00001013#32)
  | .srli _ _ _ => (0xFE00707F#32, 0x00005013#32)
  | .srai _ _ _ => (0xFE00707F#32, 0x40005013#32)
  | .add _ _ _ => (0xFE00707F#32, 0x00000033#32)
  | .sub _ _ _ => (0xFE00707F#32, 0x40000033#32)
  | .sll _ _ _ => (0xFE00707F#32, 0x00001033#32)
  | .slt _ _ _ => (0xFE00707F#32, 0x00002033#32)
  | .sltu _ _ _ => (0xFE00707F#32, 0x00003033#32)
  | .xor _ _ _ => (0xFE00707F#32, 0x00004033#32)
  | .srl _ _ _ => (0xFE00707F#32, 0x00005033#32)
  | .sra _ _ _ => (0xFE00707F#32, 0x40005033#32)
  | .or _ _ _ => (0xFE00707F#32, 0x00006033#32)
  | .and _ _ _ => (0xFE00707F#32, 0x00007033#32)
  | .fence _ _ _ => (0x0000707F#32, 0x0000000F#32)
  | .ecall _ _ => (0xFFF0707F#32, 0x00000073#32)
  | .ebreak _ _ => (0xFFF0707F#32, 0x00100073#32)

end Sys2Proof
end

