-- ==== Sys2Proof/Config.lean ====
section
/-! DEFINITION. The configuration of the block (spec/00_scope.md R6), fixed at construction.

The spec's parameters are arguments that proofs quantify over, so no number is fixed here: a state carries its own
configuration, and a statement about every state holds for every configuration.
There is no free-value constant, because no instruction of the spec leaves a value undefined (INVENTORY.md). -/

namespace Sys2Proof

/-- `MEM_SIZE`, `STACK_SIZE` and `ZERO_FILL` (R6). -/
structure Config where
  memSize   : Nat
  stackSize : Nat
  zeroFill  : Bool
  deriving DecidableEq, Repr

/-- The precondition of Construct, `0 < stack_size <= mem_size < 2^32` (70_reset_and_hazards.md R290). -/
abbrev Config.Valid (c : Config) : Prop :=
  0 < c.stackSize ∧ c.stackSize ≤ c.memSize ∧ c.memSize < 2 ^ 32

end Sys2Proof
end

