-- ==== Sys2Proof/Machine/State.lean ====
section
/-! DEFINITION. The state of the block: the record of spec/10_state.md R20 as plain data, the errors of
60_exceptions.md R260, and the machine right after reset. -/

namespace Sys2Proof.Machine

/-- Which unit made an access that is out of range (R260). -/
inductive AccessKind where
  | fetch
  | load
  | store
  deriving DecidableEq, Repr

/-- The errors a Step can raise: the closed enumeration of R260.
Each carries the pc of the instruction that raised it. -/
inductive Error where
  /-- An access of `width` bytes at `addr` reaches past `MEM_SIZE` (R262). -/
  | addressOutOfRange (kind : AccessKind) (addr : Word) (width : Nat) (pc : Word)
  /-- The fetched word is not one of the 40 instructions (R261). -/
  | decodeError (reason : DecodeReject) (word : Word) (pc : Word)
  deriving DecidableEq, Repr

/-- Whether the block can step (R31). -/
inductive Status where
  | notReset
  | running
  | halted (e : Error)
  deriving DecidableEq, Repr

/-- Why a step ends in a fault. -/
inductive Fault where
  /-- Raised by fetch, by decode, by the loads and by the stores: the spec's own error, which halts the core (R264).
  Safe: the spec demands this stop. -/
  | raised (e : Error)
  /-- Raised by `step` on a core that error `e` has halted: Step is not admitted until Reset (R265, 93 U4).
  Safe: the spec gives no step here. -/
  | haltedCore (e : Error)
  deriving DecidableEq, Repr

/-- Why a step is refused. -/
inductive Refusal where
  /-- Raised by `exec` for an instruction that has no meaning yet; no arm of this model does. Safe. -/
  | notModelled (mnemonic : String)
  /-- Raised by `step` before the first Reset: Step is not admitted (R31, 93 U5). Safe: the spec gives no step here. -/
  | notReset
  deriving DecidableEq, Repr

/-- The bytes that differ from what an unlisted address reads as, addresses rising (Memory.lean). -/
abbrev Memory := List Host.Cell

/-- The state record of R20. The instruction word is not state, and neither is anything R32 to R34 say is absent. -/
structure State where
  /-- `MEM_SIZE`, `STACK_SIZE`, `ZERO_FILL`: fixed at construction, changed by nothing (R20; log 1). -/
  cfg : Config
  /-- `x[0..31]` (R21); slot 0 is never read (Ops.lean) and is cleared at the end of every step (R126). -/
  x : Vector Word 32
  /-- The address of the instruction to fetch (R25). -/
  pc : Word
  /-- `mem[0..MEM_SIZE-1]` (R28). -/
  mem : Memory
  /-- `MEM_SIZE - 1`, fixed at construction (R29). -/
  stackTop : Word
  /-- The image size in bytes, set by Load, advisory (R30). -/
  stackBottom : Nat
  /-- Whether the block can step (R31). -/
  status : Status
  deriving DecidableEq, Repr

/-- The outcome of a step of this machine. -/
abbrev Result := Host.Outcome State Fault Refusal

/-- The configuration of `State.reset`. DESIGN CHOICE (log 1): the `MEM_SIZE` of the spec's single-step vectors and the
stack size of its one end-to-end scenario (95_test_vectors.md), with memory zero-filled. -/
def resetConfig : Config := { memSize := 0x10000, stackSize := 512, zeroFill := true }

/-- The registers after Reset: zero, and x2 the stack top (R35). -/
def resetRegs (stackTop : Word) : Vector Word 32 := (Vector.replicate 32 0#32).set 2 stackTop

/-- The machine right after Construct (zero-filled) and Reset (R35, R290, R295).
`stackBottom` is unspecified until Load: DESIGN CHOICE 0 (log 2). -/
def State.reset : State where
  cfg := resetConfig
  x := resetRegs 0xFFFF#32
  pc := 0#32
  mem := []
  stackTop := 0xFFFF#32
  stackBottom := 0
  status := .running

end Sys2Proof.Machine
end

