-- ==== Sys2Proof/Machine/Memory.lean ====
section
/-! DEFINITION. The byte memory (spec/20_memory.md) as a list in one canonical form, and the little-endian accesses built
from one byte read and one byte write. Bounds are checked in Ops.lean. -/

namespace Sys2Proof.Machine

/-- What an address that is not listed reads as: 0x00, the content of zero-filled memory (70_reset_and_hazards.md R290).
Every content of memory has a list, so this fixes the representation only (log 3). -/
def unlistedByte : Byte := 0#8

/-- The canonical form: addresses strictly rising and no entry that reads as an unlisted address does. -/
abbrev Memory.wf (m : Memory) : Prop :=
  m.Pairwise (fun c d => c.1 < d.1) ∧ ∀ c ∈ m, c.2 ≠ unlistedByte

/-- The byte at an address. -/
def Memory.byte : Memory → Nat → Byte
  | [], _ => unlistedByte
  | (a', b') :: rest, a => if a = a' then b' else Memory.byte rest a

/-- A cell in front of a list, left out where it reads as an unlisted address does. -/
def Memory.consCell (a : Nat) (b : Byte) (rest : Memory) : Memory :=
  if b = unlistedByte then rest else (a, b) :: rest

/-- Writes one byte and keeps the canonical form. -/
def Memory.setByte : Memory → Nat → Byte → Memory
  | [], a, b => Memory.consCell a b []
  | (a', b') :: rest, a, b =>
    if a < a' then Memory.consCell a b ((a', b') :: rest)
    else if a = a' then Memory.consCell a b rest
    else (a', b') :: Memory.setByte rest a b

/-- The `n` bytes from `a` up, little-endian: the byte at `a` in bits 7:0 (R52, R54). -/
def Memory.readLE (m : Memory) (a : Nat) : (n : Nat) → BitVec (8 * n)
  | 0 => 0#0
  | n + 1 => Memory.readLE m (a + 1) n ++ m.byte a

/-- Writes the low `8n` bits of `v` as `n` bytes from `a` up, little-endian; the rest of `v` is discarded (R55). -/
def Memory.writeLE (m : Memory) (a : Nat) : (n : Nat) → Word → Memory
  | 0, _ => m
  | n + 1, v => Memory.writeLE (m.setByte a (v.extractLsb' 0 8)) (a + 1) n (v >>> 8)

/-- Copies a byte string to the addresses from `a` up. -/
def Memory.copyIn (m : Memory) (a : Nat) : List Byte → Memory
  | [] => m
  | b :: bs => Memory.copyIn (m.setByte a b) (a + 1) bs

/-- The `n` bytes from `a` up, lowest address first. -/
def Memory.copyOut (m : Memory) (a : Nat) : Nat → List Byte
  | 0 => []
  | n + 1 => m.byte a :: Memory.copyOut m (a + 1) n

end Sys2Proof.Machine
end

