-- ==== Sys2Proof/Machine/Ops.lean ====
section
/-! DEFINITION. The named operations over registers, pc and memory, taking an error, and Reset, the only way back from one.
Every meaning is written over these. -/

namespace Sys2Proof.Machine

/-! ### Registers and pc -/

/-- `x[r]`: register 0 reads 0 whatever its slot holds (10_state.md R21). -/
def State.reg (s : State) (r : RegIdx) : Word := if r = 0#5 then 0#32 else s.x[r.toNat]'r.isLt

/-- `x[r] <- v`: a write to register 0 is discarded (R22). -/
def State.setReg (s : State) (r : RegIdx) (v : Word) : State :=
  if r = 0#5 then s else { s with x := s.x.set r.toNat v r.isLt }

/-- `pc <- target`. -/
def State.setPc (s : State) (target : Word) : State := { s with pc := target }

/-- `npc = pc + 4`, modulo 2^32: the next sequential instruction and the return address (40_execution_cycle.md R122). -/
def State.npc (s : State) : Word := s.pc + 4#32

/-- `x[0] <- 0` at the end of a step (R126). -/
def State.reassertZero (s : State) : State := { s with x := s.x.set 0 0#32 }

/-! ### Memory: the two primitives -/

/-- An access of `n` bytes at `addr` is in range: the sum is over the naturals, so it cannot wrap (20_memory.md R56). -/
abbrev State.inRange (s : State) (addr : Word) (n : Nat) : Prop := addr.toNat + n ≤ s.cfg.memSize

/-- The byte at an address. -/
def State.byte (s : State) (a : Nat) : Byte := s.mem.byte a

/-- `MemRead(addr, n, kind)` (R54). -/
def State.memRead (s : State) (kind : AccessKind) (addr : Word) (n : Nat) : Except Error (BitVec (8 * n)) :=
  if s.inRange addr n then .ok (s.mem.readLE addr.toNat n)
  else .error (.addressOutOfRange kind addr n s.pc)

/-- `MemWrite(addr, n, v)`; where it raises, no byte is written (R55). -/
def State.memWrite (s : State) (addr : Word) (n : Nat) (v : Word) : Except Error State :=
  if s.inRange addr n then .ok { s with mem := s.mem.writeLE addr.toNat n v }
  else .error (.addressOutOfRange .store addr n s.pc)

/-- The fetch unit: the four bytes at the pc, at any alignment (R58; 40_execution_cycle.md R123). -/
def State.fetch (s : State) : Except Error Word := s.memRead .fetch s.pc 4

/-! ### How an instruction ends -/

/-- `raise e`: the step ends with the error and changes nothing (00_scope.md R12). -/
def raise (e : Error) : Result := .fault (.raised e)

/-- Writes `rd` and goes on to the next instruction. -/
def writeBack (rd : RegIdx) (v : Word) (s : State) : Result := .next ((s.setReg rd v).setPc s.npc)

/-- Writes the return address to `rd` and transfers control to `target` (R122, R125). -/
def linkAndJump (rd : RegIdx) (target : Word) (s : State) : Result := .next ((s.setReg rd s.npc).setPc target)

/-- Transfers control to `target` if the condition holds, and goes on otherwise (43_branches.md R160). -/
def branchIf (taken : Bool) (target : Word) (s : State) : Result := .next (s.setPc (if taken then target else s.npc))

/-- Goes on to the next instruction and does nothing else. -/
def advance (s : State) : Result := .next (s.setPc s.npc)

/-- A load: reads `n` bytes at `addr`, widens them and writes `rd`; the read and its check happen for every `rd`
(44_loads.md R185). -/
def loadTo (rd : RegIdx) (addr : Word) (n : Nat) (widen : BitVec (8 * n) → Word) (s : State) : Result :=
  match s.memRead .load addr n with
  | .ok v => writeBack rd (widen v) s
  | .error e => raise e

/-- A store: writes the low `n` bytes of `v` at `addr` (45_stores.md R203). -/
def storeAt (addr : Word) (n : Nat) (v : Word) (s : State) : Result :=
  match s.memWrite addr n v with
  | .ok t => advance t
  | .error e => raise e

/-- Applies an update to the next state of an outcome. -/
def onNext (f : State → State) : Result → Result
  | .next t => .next (f t)
  | .fault r => .fault r
  | .refused r => .refused r

/-! ### Taking an error, and Reset -/

/-- What an error leaves (60_exceptions.md R264): no register, no byte and not the pc changes; the core is halted with the
error. There is no saved pc, status or mode to write, no vector, and no handler (R266). -/
def State.takeError (s : State) (e : Error) : State := { s with status := .halted e }

/-- The operation Reset (70_reset_and_hazards.md R295), the only way out of `NotReset` and `Halted`; there is no return
from an error (R267). x2 takes `stack_top` (10_state.md R29), which construction makes `MEM_SIZE - 1`. -/
def State.doReset (s : State) : State :=
  { s with x := resetRegs s.stackTop, pc := 0#32, status := .running }

/-! ### Placing a word where the next fetch reads it -/

/-- The state with a word stored at the pc, where the fetch is in range. -/
def State.placeAtPc (s : State) (w : Word) : State :=
  if s.inRange s.pc 4 then { s with mem := s.mem.writeLE s.pc.toNat 4 w } else s

end Sys2Proof.Machine
end

