-- ==== Sys2Proof/Machine/Operands.lean ====
section
/-! DEFINITION. The operand forms: the extended immediates, the shift amounts, and the one addressing mode. -/

namespace Sys2Proof.Machine

/-- `sext_N`: widens to 32 bits by replicating the top bit (00_scope.md R11). -/
def sext {n : Nat} (v : BitVec n) : Word := v.signExtend 32

/-- `zext_N`: widens to 32 bits with zeros (R11). -/
def zext {n : Nat} (v : BitVec n) : Word := v.setWidth 32

/-- `imm_i`, -2048 to 2047 (30_encoding.md R83). -/
def immI (imm : BitVec 12) : Word := sext imm

/-- `imm_s`, -2048 to 2047 (R85). -/
def immS (imm : BitVec 12) : Word := sext imm

/-- `imm_b`, an even offset from -4096 to 4094 (R86). -/
def immB (off : BitVec 13) : Word := sext off

/-- `imm_u`: the 20 bits left in place, zeros below (R87). -/
def immU (imm20 : BitVec 20) : Word := imm20 ++ 0#12

/-- `imm_j`, an even offset from -1048576 to 1048574 (R88). -/
def immJ (off : BitVec 21) : Word := sext off

/-- The amount of an immediate shift, 0 to 31 (R89). -/
def shiftAmountImm (shamt : BitVec 5) : Nat := shamt.toNat

/-- The amount of a register shift: bits 4:0 of the register (47_alu_register.md R240). -/
def shiftAmountReg (v : Word) : Nat := (v.extractLsb' 0 5).toNat

/-- The effective address of a load: `x[rs1] + imm_i` modulo 2^32; the base is not changed (20_memory.md R62). -/
def loadAddr (s : State) (rs1 : RegIdx) (imm : BitVec 12) : Word := s.reg rs1 + immI imm

/-- The effective address of a store: `x[rs1] + imm_s` modulo 2^32 (R62). -/
def storeAddr (s : State) (rs1 : RegIdx) (imm : BitVec 12) : Word := s.reg rs1 + immS imm

/-- The target of JAL and of a taken branch: relative to the instruction's own address
(40_execution_cycle.md R121; 90_conflicts.md C1, log 7). -/
def pcRelative (s : State) (offset : Word) : Word := s.pc + offset

end Sys2Proof.Machine
end

