-- ==== Sys2Proof/Machine/Flags.lean ====
section
/-! DEFINITION. The conditions. The block has no flags (spec/10_state.md R32): a comparison delivers 0 or 1 into a register
or chooses the next pc, and these are the comparisons it makes (00_scope.md R9, R10). -/

namespace Sys2Proof.Machine

/-- `bool(c)`: 1 if the condition holds, else 0 (R10). -/
def boolWord (c : Bool) : Word := if c then 1#32 else 0#32

/-- `a = b`, the bit patterns agree. -/
def condEq (a b : Word) : Bool := a == b

/-- `a <s b`, both read as two's complement. -/
def condLt (a b : Word) : Bool := decide (a.toInt < b.toInt)

/-- `a <u b`, both read as unsigned. -/
def condLtu (a b : Word) : Bool := decide (a.toNat < b.toNat)

end Sys2Proof.Machine
end

