-- ==== Sys2Proof/Machine/AluImmediate.lean ====
section
/-! DEFINITION. Immediate ALU and immediate shifts (spec/46_alu_immediate.md). Sums wrap modulo 2^32, comparisons give
0 or 1, and overflow is neither detected nor recorded (R219). -/

namespace Sys2Proof.Machine

/-- R210. -/
def execAddi (rd rs1 : RegIdx) (imm : BitVec 12) (s : State) : Result := writeBack rd (s.reg rs1 + immI imm) s

/-- R211. -/
def execSlti (rd rs1 : RegIdx) (imm : BitVec 12) (s : State) : Result := writeBack rd (boolWord (condLt (s.reg rs1) (immI imm))) s

/-- R212: the sign-extended immediate, compared unsigned (90_conflicts.md C2, log 8). -/
def execSltiu (rd rs1 : RegIdx) (imm : BitVec 12) (s : State) : Result := writeBack rd (boolWord (condLtu (s.reg rs1) (immI imm))) s

/-- R213. -/
def execXori (rd rs1 : RegIdx) (imm : BitVec 12) (s : State) : Result := writeBack rd (s.reg rs1 ^^^ immI imm) s

/-- R214. -/
def execOri (rd rs1 : RegIdx) (imm : BitVec 12) (s : State) : Result := writeBack rd (s.reg rs1 ||| immI imm) s

/-- R215. -/
def execAndi (rd rs1 : RegIdx) (imm : BitVec 12) (s : State) : Result := writeBack rd (s.reg rs1 &&& immI imm) s

/-- R216. -/
def execSlli (rd rs1 : RegIdx) (shamt : BitVec 5) (s : State) : Result := writeBack rd (s.reg rs1 <<< shiftAmountImm shamt) s

/-- R217. -/
def execSrli (rd rs1 : RegIdx) (shamt : BitVec 5) (s : State) : Result := writeBack rd (s.reg rs1 >>> shiftAmountImm shamt) s

/-- R218. -/
def execSrai (rd rs1 : RegIdx) (shamt : BitVec 5) (s : State) : Result := writeBack rd ((s.reg rs1).sshiftRight (shiftAmountImm shamt)) s

end Sys2Proof.Machine
end

