-- ==== Sys2Proof/Machine/AluRegister.lean ====
section
/-! DEFINITION. Register ALU (spec/47_alu_register.md). Register shifts use the low 5 bits of `x[rs2]` (R240). -/

namespace Sys2Proof.Machine

/-- R230. -/
def execAdd (rd rs1 rs2 : RegIdx) (s : State) : Result := writeBack rd (s.reg rs1 + s.reg rs2) s

/-- R231. -/
def execSub (rd rs1 rs2 : RegIdx) (s : State) : Result := writeBack rd (s.reg rs1 - s.reg rs2) s

/-- R232. -/
def execSll (rd rs1 rs2 : RegIdx) (s : State) : Result := writeBack rd (s.reg rs1 <<< shiftAmountReg (s.reg rs2)) s

/-- R233. -/
def execSlt (rd rs1 rs2 : RegIdx) (s : State) : Result := writeBack rd (boolWord (condLt (s.reg rs1) (s.reg rs2))) s

/-- R234. -/
def execSltu (rd rs1 rs2 : RegIdx) (s : State) : Result := writeBack rd (boolWord (condLtu (s.reg rs1) (s.reg rs2))) s

/-- R235. -/
def execXor (rd rs1 rs2 : RegIdx) (s : State) : Result := writeBack rd (s.reg rs1 ^^^ s.reg rs2) s

/-- R236. -/
def execSrl (rd rs1 rs2 : RegIdx) (s : State) : Result := writeBack rd (s.reg rs1 >>> shiftAmountReg (s.reg rs2)) s

/-- R237. -/
def execSra (rd rs1 rs2 : RegIdx) (s : State) : Result := writeBack rd ((s.reg rs1).sshiftRight (shiftAmountReg (s.reg rs2))) s

/-- R238. -/
def execOr (rd rs1 rs2 : RegIdx) (s : State) : Result := writeBack rd (s.reg rs1 ||| s.reg rs2) s

/-- R239. -/
def execAnd (rd rs1 rs2 : RegIdx) (s : State) : Result := writeBack rd (s.reg rs1 &&& s.reg rs2) s

end Sys2Proof.Machine
end

