-- ==== Sys2Proof/Machine/Branches.lean ====
section
/-! DEFINITION. The six conditional branches (spec/43_branches.md). The target is relative to the branch's own address
(R160; 90_conflicts.md C1), and a branch writes no register and no memory. -/

namespace Sys2Proof.Machine

/-- R161: bit patterns equal. -/
def execBeq (rs1 rs2 : RegIdx) (off : BitVec 13) (s : State) : Result :=
  branchIf (condEq (s.reg rs1) (s.reg rs2)) (pcRelative s (immB off)) s

/-- R162: bit patterns differ. -/
def execBne (rs1 rs2 : RegIdx) (off : BitVec 13) (s : State) : Result :=
  branchIf (!condEq (s.reg rs1) (s.reg rs2)) (pcRelative s (immB off)) s

/-- R163: signed less than. -/
def execBlt (rs1 rs2 : RegIdx) (off : BitVec 13) (s : State) : Result :=
  branchIf (condLt (s.reg rs1) (s.reg rs2)) (pcRelative s (immB off)) s

/-- R164: signed greater or equal. -/
def execBge (rs1 rs2 : RegIdx) (off : BitVec 13) (s : State) : Result :=
  branchIf (!condLt (s.reg rs1) (s.reg rs2)) (pcRelative s (immB off)) s

/-- R165: unsigned less than. -/
def execBltu (rs1 rs2 : RegIdx) (off : BitVec 13) (s : State) : Result :=
  branchIf (condLtu (s.reg rs1) (s.reg rs2)) (pcRelative s (immB off)) s

/-- R166: unsigned greater or equal. -/
def execBgeu (rs1 rs2 : RegIdx) (off : BitVec 13) (s : State) : Result :=
  branchIf (!condLtu (s.reg rs1) (s.reg rs2)) (pcRelative s (immB off)) s

end Sys2Proof.Machine
end

