-- ==== Sys2Proof/Machine/Jumps.lean ====
section
/-! DEFINITION. JAL and JALR (spec/42_jumps.md). A target outside memory fails at the next fetch, not here (R27). -/

namespace Sys2Proof.Machine

/-- R150. -/
def execJal (rd : RegIdx) (off : BitVec 21) (s : State) : Result := linkAndJump rd (pcRelative s (immJ off)) s

/-- The target of JALR: bit 0 cleared, bit 1 kept (R151). -/
def jalrTarget (s : State) (rs1 : RegIdx) (imm : BitVec 12) : Word := (s.reg rs1 + immI imm) &&& 0xFFFFFFFE#32

/-- R151: the target is formed from the old `x[rs1]`. -/
def execJalr (rd rs1 : RegIdx) (imm : BitVec 12) (s : State) : Result := linkAndJump rd (jalrTarget s rs1 imm) s

end Sys2Proof.Machine
end

