-- ==== Sys2Proof/Machine/Loads.lean ====
section
/-! DEFINITION. The five loads (spec/44_loads.md). -/

namespace Sys2Proof.Machine

/-- R180: sign-extended byte. -/
def execLb (rd rs1 : RegIdx) (imm : BitVec 12) (s : State) : Result := loadTo rd (loadAddr s rs1 imm) 1 sext s

/-- R181: sign-extended halfword. -/
def execLh (rd rs1 : RegIdx) (imm : BitVec 12) (s : State) : Result := loadTo rd (loadAddr s rs1 imm) 2 sext s

/-- R182: word; its 32 bits need no extension. -/
def execLw (rd rs1 : RegIdx) (imm : BitVec 12) (s : State) : Result := loadTo rd (loadAddr s rs1 imm) 4 zext s

/-- R183: zero-extended byte. -/
def execLbu (rd rs1 : RegIdx) (imm : BitVec 12) (s : State) : Result := loadTo rd (loadAddr s rs1 imm) 1 zext s

/-- R184: zero-extended halfword. -/
def execLhu (rd rs1 : RegIdx) (imm : BitVec 12) (s : State) : Result := loadTo rd (loadAddr s rs1 imm) 2 zext s

end Sys2Proof.Machine
end

