-- ==== Sys2Proof/Machine/Stores.lean ====
section
/-! DEFINITION. The three stores (spec/45_stores.md). -/

namespace Sys2Proof.Machine

/-- R200: the low byte of `x[rs2]`. -/
def execSb (rs1 rs2 : RegIdx) (imm : BitVec 12) (s : State) : Result :=
  storeAt (storeAddr s rs1 imm) 1 (s.reg rs2) s

/-- R201: the low halfword of `x[rs2]`. -/
def execSh (rs1 rs2 : RegIdx) (imm : BitVec 12) (s : State) : Result :=
  storeAt (storeAddr s rs1 imm) 2 (s.reg rs2) s

/-- R202: the low word of `x[rs2]`. -/
def execSw (rs1 rs2 : RegIdx) (imm : BitVec 12) (s : State) : Result :=
  storeAt (storeAddr s rs1 imm) 4 (s.reg rs2) s

end Sys2Proof.Machine
end

