-- ==== Sys2Proof/Machine/System.lean ====
section
/-! DEFINITION. FENCE, ECALL and EBREAK (spec/48_system.md): each only advances the pc. Their rd, rs1 and bits 31:20 are
not read (30_encoding.md R99), no trap is taken and nothing is reported to the host (R251, R252, R253). -/

namespace Sys2Proof.Machine

/-- R250: orders nothing beyond the order every access already has (20_memory.md R64). -/
def execFence (s : State) : Result := advance s

/-- R251. -/
def execEcall (s : State) : Result := advance s

/-- R252. -/
def execEbreak (s : State) : Result := advance s

end Sys2Proof.Machine
end

