-- ==== Sys2Proof/Machine/UpperImmediate.lean ====
section
/-! DEFINITION. LUI and AUIPC (spec/41_upper_immediate.md). -/

namespace Sys2Proof.Machine

/-- R140. -/
def execLui (rd : RegIdx) (imm20 : BitVec 20) (s : State) : Result := writeBack rd (immU imm20) s

/-- R141: relative to the address of this AUIPC. -/
def execAuipc (rd : RegIdx) (imm20 : BitVec 20) (s : State) : Result := writeBack rd (pcRelative s (immU imm20)) s

end Sys2Proof.Machine
end

