-- ==== Sys2Proof/Machine/Cycle.lean ====
section
/-! DEFINITION. One Step of the block: admission, fetch, decode, execute, and the re-assertion of x0
(spec/40_execution_cycle.md R120). -/

namespace Sys2Proof.Machine

/-- The cycle of a running core. The order fixes the priority of the errors: fetch range, decode, data range
(60_exceptions.md R263). The instruction's effects are committed together and only if nothing is raised (R124). -/
def runCycle (s : State) : Result :=
  match s.fetch with
  | .error e => raise e
  | .ok w =>
    match decode w with
    | .error reason => raise (.decodeError reason w s.pc)
    | .ok i => onNext State.reassertZero (exec i s)

/-- Step is admitted only in `Running` (10_state.md R31; 60_exceptions.md R265; log 5). -/
def admittedStep (s : State) : Result :=
  match s.status with
  | .notReset => .refused .notReset
  | .halted e => .fault (.haltedCore e)
  | .running => runCycle s

end Sys2Proof.Machine
end

