-- ==== Sys2Proof/Machine/Step.lean ====
section
/-! DEFINITION. One step of the machine, and the placing of a word where it fetches. -/

namespace Sys2Proof.Machine

/-- One Step (spec/40_execution_cycle.md R120). -/
def step (s : State) : Host.Outcome State Fault Refusal := admittedStep s

/-- The state with a word of spec/opcode_table.json, its bits above `nbits` zero, at the pc: where `step` fetches next.
It stands for the host's Load (log 20). -/
def State.withFetchWord (s : State) (nbits w : Nat) : State := s.placeAtPc (tableWord nbits w)

end Sys2Proof.Machine
end

