-- ==== Sys2Proof/Machine/HostOps.lean ====
section
/-! DEFINITION. The host's five operations (spec/00_scope.md R7): Construct, Load, Reset (Ops.lean), Step and Inspect,
and a run. Each completes before the next begins (40_execution_cycle.md R127). -/

namespace Sys2Proof.Machine

/-- What the host is told where an operation other than Step is turned away; no state is changed
(70_reset_and_hazards.md R291, R293; 60_exceptions.md R280). -/
inductive HostError where
  | constructionError
  | loadError
  | inspectOutOfRange
  deriving DecidableEq, Repr

/-- What construction leaves unspecified: an argument, so that a statement about Construct holds for every value
(92_eei_decisions.md D15, D16; log 17). -/
structure Draw where
  /-- `INIT_MEM`: the bytes of memory when `zero_fill` is false. Bytes past `MEM_SIZE` are not used, and where the list is
  shorter the rest is zero, so every content of memory is some list. -/
  initMem : List Byte
  /-- `x[1..31]`; slot 0 is cleared, since `x[0]` is 0 from construction on. -/
  regs : Vector Word 32
  pc : Word
  stackBottom : Nat
  deriving DecidableEq, Repr

/-- Construct `init(mem_size, stack_size, zero_fill)` (R290, R291). -/
def construct (memSize stackSize : Int) (zeroFill : Bool) (draw : Draw) : Except HostError State :=
  if 0 < stackSize ∧ stackSize ≤ memSize ∧ memSize < 2 ^ 32 then
    .ok {
      cfg := { memSize := memSize.toNat, stackSize := stackSize.toNat, zeroFill := zeroFill }
      x := draw.regs.set 0 0#32
      pc := draw.pc
      mem := if zeroFill then [] else Memory.copyIn [] 0 (draw.initMem.take memSize.toNat)
      stackTop := BitVec.ofNat 32 (memSize.toNat - 1)
      stackBottom := draw.stackBottom
      status := .notReset }
  else .error .constructionError

/-- Load `load_program(state, image_bytes)`: admitted in every status, any length from 1 to `MEM_SIZE - 1`
(R292, R293, R294). -/
def load (s : State) (image : List Byte) : Except HostError State :=
  if 0 < image.length ∧ image.length < s.cfg.memSize then
    .ok { s with mem := s.mem.copyIn 0 image, stackBottom := image.length }
  else .error .loadError

/-- The state a Step leaves: an error halts the core and changes nothing else (60_exceptions.md R264), and a Step that is
not admitted changes nothing (R265). -/
def afterStep (s : State) : State :=
  match step s with
  | .next t => t
  | .fault (.raised e) => s.takeError e
  | .fault (.haltedCore _) => s
  | .refused _ => s

/-- A run: the host steps while its own condition `END_OF_RUN` does not hold and no error has halted the core, at most
`fuel` times (70_reset_and_hazards.md R299; 92_eei_decisions.md D18). -/
def run (endOfRun : State → Bool) : Nat → State → State
  | 0, s => s
  | fuel + 1, s => if endOfRun s || s.status != .running then s else run endOfRun fuel (afterStep s)

/-- The display names of the registers, by index (10_state.md R23). They have no effect on execution. -/
def abiNames : List String :=
  ["zero", "ra", "sp", "gp", "tp", "t0", "t1", "t2", "s0/fp", "s1", "a0", "a1", "a2", "a3", "a4", "a5"] ++
  ["a6", "a7", "s2", "s3", "s4", "s5", "s6", "s7", "s8", "s9", "s10", "s11", "t3", "t4", "t5", "t6"]

/-- What Inspect shows beside the memory range (R280). -/
structure Snapshot where
  regs : List (String × Word)
  pc : Word
  status : Status
  deriving DecidableEq, Repr

/-- Inspect: a read-only snapshot and the `n` bytes from `addr` up, in any status. It gives no new state, so it changes
none; a range past the end answers an error to the host and does not halt the core (R280). DESIGN CHOICE: the error takes
the place of the bytes only, and the snapshot is answered beside it (log 30); DEDUCED: an empty range past the end is an
error too (log 19). -/
def inspect (s : State) (addr n : Nat) : Snapshot × Except HostError (List Byte) :=
  ({ regs := abiNames.zip ((List.range 32).map fun i => s.reg (BitVec.ofNat 5 i)), pc := s.pc, status := s.status },
   if addr + n ≤ s.cfg.memSize then .ok (s.mem.copyOut addr n) else .error .inspectOutOfRange)

end Sys2Proof.Machine
end

