-- ==== Sys2Proof/Safety.lean ====
section
/-! DEFINITION. The terms the claims are stated in: the invariant of the machine, and what an instruction leaves
unchanged. -/

namespace Sys2Proof.Machine

/-- What holds of every state that construction, load, reset and steps reach. -/
structure Invariant (s : State) : Prop where
  /-- `x[0]` holds 0 (spec/10_state.md R21, R22). -/
  zeroSlot : s.x[0] = 0#32
  /-- Memory is in its canonical form. -/
  memWf : s.mem.wf
  /-- Only addresses 0 to `MEM_SIZE - 1` hold a byte (20_memory.md R50). -/
  memInRange : ∀ c ∈ s.mem, c.1 < s.cfg.memSize
  /-- The configuration meets Construct's precondition (70_reset_and_hazards.md R290). -/
  cfgValid : s.cfg.Valid
  /-- `stack_top` is `MEM_SIZE - 1` (10_state.md R29). -/
  topFixed : s.stackTop.toNat + 1 = s.cfg.memSize

/-- All but the registers, the pc and memory is as before: the configuration, `stack_top`, `stack_bottom`, `status`. -/
structure SameBookkeeping (s t : State) : Prop where
  cfg : t.cfg = s.cfg
  stackTop : t.stackTop = s.stackTop
  stackBottom : t.stackBottom = s.stackBottom
  status : t.status = s.status

/-- Every byte of memory reads as before. -/
def SameBytes (s t : State) : Prop := ∀ a, t.byte a = s.byte a

/-- Every register reads as before. -/
def SameRegs (s t : State) : Prop := ∀ r, t.reg r = s.reg r

/-- Every register but `rd` reads as before, and so does every byte; the bookkeeping is as before. -/
structure OnlyRegister (rd : RegIdx) (s t : State) : Prop where
  regs : ∀ r, r ≠ rd → t.reg r = s.reg r
  bytes : SameBytes s t
  book : SameBookkeeping s t

/-- No register and no byte changed, and the bookkeeping is as before: at most the pc differs. -/
structure OnlyPc (s t : State) : Prop where
  regs : SameRegs s t
  bytes : SameBytes s t
  book : SameBookkeeping s t

/-- No register changed, every byte outside the `n` bytes from `a` up reads as before; the bookkeeping is as before. -/
structure OnlyBytes (a n : Nat) (s t : State) : Prop where
  regs : SameRegs s t
  bytes : ∀ b, b < a ∨ a + n ≤ b → t.byte b = s.byte b
  book : SameBookkeeping s t

/-- `t` is `s` after `x[rd] <- v` and the advance to the next instruction: for rd = 0 the value is discarded. -/
structure WroteRegister (rd : RegIdx) (v : Word) (s t : State) : Prop where
  dest : t.reg rd = if rd = 0#5 then 0#32 else v
  pc : t.pc = s.pc + 4#32
  frame : OnlyRegister rd s t

/-- `t` is `s` after a jump: the return address is in `rd` (discarded for rd = 0) and the pc is `target`. -/
structure Jumped (rd : RegIdx) (target : Word) (s t : State) : Prop where
  link : t.reg rd = if rd = 0#5 then 0#32 else s.pc + 4#32
  pc : t.pc = target
  frame : OnlyRegister rd s t

/-- `t` is `s` after the low `n` bytes of `v` were stored from `a` up, little-endian, and the advance. -/
structure Stored (a n : Nat) (v : Word) (s t : State) : Prop where
  bytes : ∀ k, k < n → t.byte (a + k) = v.extractLsb' (8 * k) 8
  pc : t.pc = s.pc + 4#32
  frame : OnlyBytes a n s t

/-- The pc an error records (60_exceptions.md R260). -/
def Error.pcOf : Error → Word
  | .addressOutOfRange _ _ _ pc => pc
  | .decodeError _ _ pc => pc

end Sys2Proof.Machine

namespace Sys2Proof

open Machine

/-! ### The words that are no instruction, from the tables of 30_encoding.md -/

/-- The eleven opcodes of R95. -/
def usedOpcodes : List (BitVec 7) :=
  [0x37#7, 0x17#7, 0x6F#7, 0x67#7, 0x63#7, 0x03#7, 0x23#7, 0x13#7, 0x33#7, 0x0F#7, 0x73#7]

/-- The funct3 values an opcode uses (R96); all of them where bits 14:12 are immediate bits. -/
def usedFunct3 (op : BitVec 7) : List (BitVec 3) :=
  if op = 0x67#7 ∨ op = 0x0F#7 ∨ op = 0x73#7 then [0#3]
  else if op = 0x63#7 then [0#3, 1#3, 4#3, 5#3, 6#3, 7#3]
  else if op = 0x03#7 then [0#3, 1#3, 2#3, 4#3, 5#3]
  else if op = 0x23#7 then [0#3, 1#3, 2#3]
  else [0#3, 1#3, 2#3, 3#3, 4#3, 5#3, 6#3, 7#3]

/-- The funct7 values an opcode and funct3 use (R97); all of them where funct7 is no key. -/
def usedFunct7 (op : BitVec 7) (f3 : BitVec 3) (f7 : BitVec 7) : Bool :=
  if op = 0x33#7 then f7 == 0x00#7 || (f7 == 0x20#7 && (f3 == 0#3 || f3 == 5#3))
  else if op = 0x13#7 ∧ f3 = 1#3 then f7 == 0x00#7
  else if op = 0x13#7 ∧ f3 = 5#3 then f7 == 0x00#7 || f7 == 0x20#7
  else true

/-- Why a word is no instruction, the levels in the order of 60_exceptions.md R263; `none` for an instruction. -/
def rejectOf (w : Word) : Option DecodeReject :=
  let op := w.extractLsb' 0 7
  let f3 := w.extractLsb' 12 3
  let f7 := w.extractLsb' 25 7
  let f12 := w.extractLsb' 20 12
  if op ∉ usedOpcodes then some (.opcode op)
  else if f3 ∉ usedFunct3 op then some (.funct3 f3)
  else if usedFunct7 op f3 f7 = false then some (.funct7 f7)
  else if op = 0x73#7 ∧ f12 ∉ [0x000#12, 0x001#12] then some (.funct12 f12)
  else none

/-! ### What an instruction touches, from the tables of 10_state.md and 20_memory.md -/

/-- The register an instruction writes, by the table of 10_state.md R24. -/
def Instr.dest : Instr → Option RegIdx
  | .lui rd _ => some rd
  | .auipc rd _ => some rd
  | .jal rd _ => some rd
  | .jalr rd _ _ => some rd
  | .beq _ _ _ => none
  | .bne _ _ _ => none
  | .blt _ _ _ => none
  | .bge _ _ _ => none
  | .bltu _ _ _ => none
  | .bgeu _ _ _ => none
  | .lb rd _ _ => some rd
  | .lh rd _ _ => some rd
  | .lw rd _ _ => some rd
  | .lbu rd _ _ => some rd
  | .lhu rd _ _ => some rd
  | .sb _ _ _ => none
  | .sh _ _ _ => none
  | .sw _ _ _ => none
  | .addi rd _ _ => some rd
  | .slti rd _ _ => some rd
  | .sltiu rd _ _ => some rd
  | .xori rd _ _ => some rd
  | .ori rd _ _ => some rd
  | .andi rd _ _ => some rd
  | .slli rd _ _ => some rd
  | .srli rd _ _ => some rd
  | .srai rd _ _ => some rd
  | .add rd _ _ => some rd
  | .sub rd _ _ => some rd
  | .sll rd _ _ => some rd
  | .slt rd _ _ => some rd
  | .sltu rd _ _ => some rd
  | .xor rd _ _ => some rd
  | .srl rd _ _ => some rd
  | .sra rd _ _ => some rd
  | .or rd _ _ => some rd
  | .and rd _ _ => some rd
  | .fence _ _ _ => none
  | .ecall _ _ => none
  | .ebreak _ _ => none

/-- The registers an instruction reads, by the table of 10_state.md R24. -/
def Instr.sources : Instr → List RegIdx
  | .lui _ _ => []
  | .auipc _ _ => []
  | .jal _ _ => []
  | .jalr _ rs1 _ => [rs1]
  | .beq rs1 rs2 _ => [rs1, rs2]
  | .bne rs1 rs2 _ => [rs1, rs2]
  | .blt rs1 rs2 _ => [rs1, rs2]
  | .bge rs1 rs2 _ => [rs1, rs2]
  | .bltu rs1 rs2 _ => [rs1, rs2]
  | .bgeu rs1 rs2 _ => [rs1, rs2]
  | .lb _ rs1 _ => [rs1]
  | .lh _ rs1 _ => [rs1]
  | .lw _ rs1 _ => [rs1]
  | .lbu _ rs1 _ => [rs1]
  | .lhu _ rs1 _ => [rs1]
  | .sb rs1 rs2 _ => [rs1, rs2]
  | .sh rs1 rs2 _ => [rs1, rs2]
  | .sw rs1 rs2 _ => [rs1, rs2]
  | .addi _ rs1 _ => [rs1]
  | .slti _ rs1 _ => [rs1]
  | .sltiu _ rs1 _ => [rs1]
  | .xori _ rs1 _ => [rs1]
  | .ori _ rs1 _ => [rs1]
  | .andi _ rs1 _ => [rs1]
  | .slli _ rs1 _ => [rs1]
  | .srli _ rs1 _ => [rs1]
  | .srai _ rs1 _ => [rs1]
  | .add _ rs1 rs2 => [rs1, rs2]
  | .sub _ rs1 rs2 => [rs1, rs2]
  | .sll _ rs1 rs2 => [rs1, rs2]
  | .slt _ rs1 rs2 => [rs1, rs2]
  | .sltu _ rs1 rs2 => [rs1, rs2]
  | .xor _ rs1 rs2 => [rs1, rs2]
  | .srl _ rs1 rs2 => [rs1, rs2]
  | .sra _ rs1 rs2 => [rs1, rs2]
  | .or _ rs1 rs2 => [rs1, rs2]
  | .and _ rs1 rs2 => [rs1, rs2]
  | .fence _ _ _ => []
  | .ecall _ _ => []
  | .ebreak _ _ => []

/-- The next pc, by the table of 10_state.md R26 and the conditions of 43_branches.md. -/
def Instr.nextPc (s : State) : Instr → Word
  | .lui _ _ => s.pc + 4#32
  | .auipc _ _ => s.pc + 4#32
  | .jal _ off => s.pc + off.signExtend 32
  | .jalr _ rs1 imm => (s.reg rs1 + imm.signExtend 32) &&& ~~~1#32
  | .beq rs1 rs2 off => if s.reg rs1 = s.reg rs2 then s.pc + off.signExtend 32 else s.pc + 4#32
  | .bne rs1 rs2 off => if s.reg rs1 ≠ s.reg rs2 then s.pc + off.signExtend 32 else s.pc + 4#32
  | .blt rs1 rs2 off => if (s.reg rs1).toInt < (s.reg rs2).toInt then s.pc + off.signExtend 32 else s.pc + 4#32
  | .bge rs1 rs2 off => if (s.reg rs2).toInt ≤ (s.reg rs1).toInt then s.pc + off.signExtend 32 else s.pc + 4#32
  | .bltu rs1 rs2 off => if (s.reg rs1).toNat < (s.reg rs2).toNat then s.pc + off.signExtend 32 else s.pc + 4#32
  | .bgeu rs1 rs2 off => if (s.reg rs2).toNat ≤ (s.reg rs1).toNat then s.pc + off.signExtend 32 else s.pc + 4#32
  | .lb _ _ _ => s.pc + 4#32
  | .lh _ _ _ => s.pc + 4#32
  | .lw _ _ _ => s.pc + 4#32
  | .lbu _ _ _ => s.pc + 4#32
  | .lhu _ _ _ => s.pc + 4#32
  | .sb _ _ _ => s.pc + 4#32
  | .sh _ _ _ => s.pc + 4#32
  | .sw _ _ _ => s.pc + 4#32
  | .addi _ _ _ => s.pc + 4#32
  | .slti _ _ _ => s.pc + 4#32
  | .sltiu _ _ _ => s.pc + 4#32
  | .xori _ _ _ => s.pc + 4#32
  | .ori _ _ _ => s.pc + 4#32
  | .andi _ _ _ => s.pc + 4#32
  | .slli _ _ _ => s.pc + 4#32
  | .srli _ _ _ => s.pc + 4#32
  | .srai _ _ _ => s.pc + 4#32
  | .add _ _ _ => s.pc + 4#32
  | .sub _ _ _ => s.pc + 4#32
  | .sll _ _ _ => s.pc + 4#32
  | .slt _ _ _ => s.pc + 4#32
  | .sltu _ _ _ => s.pc + 4#32
  | .xor _ _ _ => s.pc + 4#32
  | .srl _ _ _ => s.pc + 4#32
  | .sra _ _ _ => s.pc + 4#32
  | .or _ _ _ => s.pc + 4#32
  | .and _ _ _ => s.pc + 4#32
  | .fence _ _ _ => s.pc + 4#32
  | .ecall _ _ => s.pc + 4#32
  | .ebreak _ _ => s.pc + 4#32

/-- The data access an instruction makes in a state: its kind, its effective address and its width in bytes
(20_memory.md R59, R62). -/
def Instr.access (s : State) : Instr → Option (AccessKind × Word × Nat)
  | .lui _ _ => none
  | .auipc _ _ => none
  | .jal _ _ => none
  | .jalr _ _ _ => none
  | .beq _ _ _ => none
  | .bne _ _ _ => none
  | .blt _ _ _ => none
  | .bge _ _ _ => none
  | .bltu _ _ _ => none
  | .bgeu _ _ _ => none
  | .lb _ rs1 imm => some (.load, s.reg rs1 + imm.signExtend 32, 1)
  | .lh _ rs1 imm => some (.load, s.reg rs1 + imm.signExtend 32, 2)
  | .lw _ rs1 imm => some (.load, s.reg rs1 + imm.signExtend 32, 4)
  | .lbu _ rs1 imm => some (.load, s.reg rs1 + imm.signExtend 32, 1)
  | .lhu _ rs1 imm => some (.load, s.reg rs1 + imm.signExtend 32, 2)
  | .sb rs1 _ imm => some (.store, s.reg rs1 + imm.signExtend 32, 1)
  | .sh rs1 _ imm => some (.store, s.reg rs1 + imm.signExtend 32, 2)
  | .sw rs1 _ imm => some (.store, s.reg rs1 + imm.signExtend 32, 4)
  | .addi _ _ _ => none
  | .slti _ _ _ => none
  | .sltiu _ _ _ => none
  | .xori _ _ _ => none
  | .ori _ _ _ => none
  | .andi _ _ _ => none
  | .slli _ _ _ => none
  | .srli _ _ _ => none
  | .srai _ _ _ => none
  | .add _ _ _ => none
  | .sub _ _ _ => none
  | .sll _ _ _ => none
  | .slt _ _ _ => none
  | .sltu _ _ _ => none
  | .xor _ _ _ => none
  | .srl _ _ _ => none
  | .sra _ _ _ => none
  | .or _ _ _ => none
  | .and _ _ _ => none
  | .fence _ _ _ => none
  | .ecall _ _ => none
  | .ebreak _ _ => none

/-- The instruction's data access, if it makes one, is in range (20_memory.md R56). -/
def Instr.accessInRange (i : Instr) (s : State) : Prop :=
  match i.access s with
  | none => True
  | some (_, addr, n) => addr.toNat + n ≤ s.cfg.memSize

end Sys2Proof
end

