-- ==== Sys2Proof/Certificates/Slice0/Obligations.lean ====
section
/-! DEFINITION. The statements about the machine, for the provers. Nothing is proved here.

Every per-instruction statement gives the word of the instruction with what it decodes to, that `exec` answers a next state,
the value written, and the frame; every form is covered, register 0 included. -/

open Sys2Proof Sys2Proof.Machine

/-! ### Encoding -/

/-- The decoder reads back every well-formed instruction from its word (spec/30_encoding.md R82, R100). -/
def Obligations.DecodeInvertsEncode : Prop :=
  ∀ i : Instr, i.wf = true → decode (encode i) = .ok i

/-- Each word has one meaning and no bit of it is dropped: a word that decodes is the word of the well-formed instruction it
decodes to (R100; the fields that R99 ignores are kept as operands, log 10). -/
def Obligations.EncodeInvertsDecode : Prop :=
  ∀ (w : Word) (i : Instr), decode w = .ok i → i.wf = true ∧ encode i = w

/-- The decoder and the masks of spec/opcode_table.json agree: a word decodes to a row's instruction exactly if, masked, it is
that row's match. -/
def Obligations.DecodeAgreesWithOpcodeTable : Prop :=
  (∀ (w : Word) (i : Instr), decode w = .ok i → w &&& (tableRow i).1 = (tableRow i).2) ∧
  (∀ (w : Word) (i : Instr), w &&& (tableRow i).1 = (tableRow i).2 →
    ∃ j, decode w = .ok j ∧ tableRow j = tableRow i)

/-- R91: every representable immediate of the I, S, B and J encodings, put into its word and decoded, is the signed value it
was. (For U the same follows from `DecodeInvertsEncode`.) -/
def Obligations.ImmediatesRoundTrip : Prop :=
  (∀ (v : Int) (rs1 rd : RegIdx) (f3 : BitVec 3) (op : BitVec 7), -2048 ≤ v → v ≤ 2047 →
    (immI (immIOf (encI (BitVec.ofInt 12 v) rs1 f3 rd op))).toInt = v) ∧
  (∀ (v : Int) (rs2 rs1 : RegIdx) (f3 : BitVec 3) (op : BitVec 7), -2048 ≤ v → v ≤ 2047 →
    (immS (immSOf (encS (BitVec.ofInt 12 v) rs2 rs1 f3 op))).toInt = v) ∧
  (∀ (v : Int) (rs2 rs1 : RegIdx) (f3 : BitVec 3) (op : BitVec 7), -4096 ≤ v → v ≤ 4094 → v % 2 = 0 →
    (immB (offBOf (encB (BitVec.ofInt 13 v) rs2 rs1 f3 op))).toInt = v) ∧
  (∀ (v : Int) (rd : RegIdx) (op : BitVec 7), -1048576 ≤ v → v ≤ 1048574 → v % 2 = 0 →
    (immJ (offJOf (encJ (BitVec.ofInt 21 v) rd op))).toInt = v)

/-- Words of the spec's own examples, one or more of each family, decode to the instructions they stand for
(the example lines of 41_ to 48_). -/
def Obligations.DecodeOfWordsFromTheSpec : Prop :=
  decode 0xFB000113#32 = .ok (.addi 2#5 0#5 0xFB0#12) ∧
  decode 0x123452B7#32 = .ok (.lui 5#5 0x12345#20) ∧
  decode 0x100000EF#32 = .ok (.jal 1#5 0x100#21) ∧
  decode 0xFFD280E7#32 = .ok (.jalr 1#5 5#5 (-3#12)) ∧
  decode 0xFE209CE3#32 = .ok (.bne 1#5 2#5 (-8#13)) ∧
  decode 0x00111283#32 = .ok (.lh 5#5 2#5 1#12) ∧
  decode 0xFE512E23#32 = .ok (.sw 2#5 5#5 (-4#12)) ∧
  decode 0x41F35293#32 = .ok (.srai 5#5 6#5 31#5) ∧
  decode 0x407302B3#32 = .ok (.sub 5#5 6#5 7#5) ∧
  decode 0x00100073#32 = .ok (.ebreak 0#5 0#5)

/-- R261: a fetched word that is no instruction stops the run with a decode error that names the level, the offending field's
value, the word and the pc, and halts the core; registers, memory, pc, configuration, `stack_top` and `stack_bottom` are
unchanged. -/
def Obligations.UnusedCodesStopTheRun : Prop :=
  ∀ (s : State) (w : Word) (reason : DecodeReject), s.status = .running → s.pc.toNat + 4 ≤ s.cfg.memSize →
    w = s.byte (s.pc.toNat + 3) ++ s.byte (s.pc.toNat + 2) ++ s.byte (s.pc.toNat + 1) ++ s.byte s.pc.toNat →
    rejectOf w = some reason →
    step s = .fault (.raised (.decodeError reason w s.pc)) ∧
    (afterStep s).status = .halted (.decodeError reason w s.pc) ∧
    SameRegs s (afterStep s) ∧ SameBytes s (afterStep s) ∧ (afterStep s).pc = s.pc ∧
    (afterStep s).cfg = s.cfg ∧ (afterStep s).stackTop = s.stackTop ∧ (afterStep s).stackBottom = s.stackBottom

/-! ### The step -/

/-- On a running core, where the four bytes at the pc decode to an instruction, a step is that instruction's `exec` followed by
the re-assertion of x0 (40_execution_cycle.md R120, R123, R126); where the fetch is out of range it raises and nothing is
decoded. That no read of a register, byte, pc or bookkeeping value sees the re-assertion is the model's reading of
10_state.md R21 (log 21). -/
def Obligations.StepRunsDecodedInstruction : Prop :=
  (∀ (s : State) (i : Instr), s.status = .running → s.pc.toNat + 4 ≤ s.cfg.memSize →
    decode (s.byte (s.pc.toNat + 3) ++ s.byte (s.pc.toNat + 2) ++ s.byte (s.pc.toNat + 1) ++ s.byte s.pc.toNat) = .ok i →
    step s = match exec i s with
      | .next t => .next t.reassertZero
      | .fault r => .fault r
      | .refused r => .refused r) ∧
  (∀ t : State, OnlyPc t t.reassertZero ∧ t.reassertZero.pc = t.pc) ∧
  (∀ s : State, s.status = .running → s.cfg.memSize < s.pc.toNat + 4 →
    step s = .fault (.raised (.addressOutOfRange .fetch s.pc 4 s.pc)))

/-- R263: a step raises at most one error, the first of fetch range, decode (opcode, then funct3, then funct7 or funct12), data
range. -/
def Obligations.ErrorsComeInOrder : Prop :=
  (∀ s : State, s.status = .running →
    let w : Word :=
      s.byte (s.pc.toNat + 3) ++ s.byte (s.pc.toNat + 2) ++ s.byte (s.pc.toNat + 1) ++ s.byte s.pc.toNat
    (s.cfg.memSize < s.pc.toNat + 4 → step s = .fault (.raised (.addressOutOfRange .fetch s.pc 4 s.pc))) ∧
    (∀ reason, s.pc.toNat + 4 ≤ s.cfg.memSize → rejectOf w = some reason →
      step s = .fault (.raised (.decodeError reason w s.pc))) ∧
    (∀ i kind addr n, s.pc.toNat + 4 ≤ s.cfg.memSize → decode w = .ok i → i.access s = some (kind, addr, n) →
      s.cfg.memSize < addr.toNat + n → step s = .fault (.raised (.addressOutOfRange kind addr n s.pc)))) ∧
  (∀ (w : Word), (∀ reason, decode w = .error reason ↔ rejectOf w = some reason) ∧
    ((∃ i, decode w = .ok i) ↔ rejectOf w = none))

/-- A running core's step answers a next state exactly if the fetch is in range, the word decodes, and the instruction's data
access, if it makes one, is in range (R120, R260). -/
def Obligations.StepCompletesExactlyWhenNothingRaises : Prop :=
  ∀ s : State, s.status = .running →
    ((∃ t, step s = .next t) ↔
      s.pc.toNat + 4 ≤ s.cfg.memSize ∧ ∃ i,
        decode (s.byte (s.pc.toNat + 3) ++ s.byte (s.pc.toNat + 2) ++ s.byte (s.pc.toNat + 1) ++ s.byte s.pc.toNat) = .ok i ∧
        i.accessInRange s)

/-- The errors are a closed enumeration (60_exceptions.md R260): on a running core a step raises an error exactly under the
condition, and with the record, that the table gives it (a later check is reached only if the earlier ones pass, R263), and
nothing else raises one. That a step refuses nothing but a core that has not been reset (10_state.md R31) rests on the
model's answer to a Step that is not admitted (log 5). -/
def Obligations.RaisedErrorsAreTheListedOnes : Prop :=
  (∀ (s : State) (e : Error), s.status = .running →
    let w : Word :=
      s.byte (s.pc.toNat + 3) ++ s.byte (s.pc.toNat + 2) ++ s.byte (s.pc.toNat + 1) ++ s.byte s.pc.toNat
    (step s = .fault (.raised e) ↔
      match e with
      | .addressOutOfRange .fetch addr n pc => s.cfg.memSize < s.pc.toNat + 4 ∧ addr = s.pc ∧ n = 4 ∧ pc = s.pc
      | .decodeError reason word pc =>
        s.pc.toNat + 4 ≤ s.cfg.memSize ∧ decode w = .error reason ∧ word = w ∧ pc = s.pc
      | .addressOutOfRange .load addr n pc => s.pc.toNat + 4 ≤ s.cfg.memSize ∧ s.cfg.memSize < addr.toNat + n ∧
        pc = s.pc ∧ ∃ i, decode w = .ok i ∧ i.access s = some (.load, addr, n)
      | .addressOutOfRange .store addr n pc => s.pc.toNat + 4 ≤ s.cfg.memSize ∧ s.cfg.memSize < addr.toNat + n ∧
        pc = s.pc ∧ ∃ i, decode w = .ok i ∧ i.access s = some (.store, addr, n))) ∧
  (∀ (s : State) (e : Error), step s = .fault (.raised e) → s.status = .running) ∧
  (∀ (s : State) (r : Refusal), step s = .refused r → r = .notReset ∧ s.status = .notReset)

/-- R264: an error changes no register, no byte and not the pc; the core is halted with it, and the pc it reports is the pc
left in the state. -/
def Obligations.ErrorsArePrecise : Prop :=
  ∀ (s : State) (e : Error), step s = .fault (.raised e) →
    SameRegs s (afterStep s) ∧ SameBytes s (afterStep s) ∧ (afterStep s).pc = s.pc ∧ e.pcOf = (afterStep s).pc ∧
    (afterStep s).status = .halted e ∧ (afterStep s).cfg = s.cfg ∧ (afterStep s).stackTop = s.stackTop ∧
    (afterStep s).stackBottom = s.stackBottom

/-- Step is admitted in `Running` only; Construct sets `NotReset`, Reset sets `Running`, an error sets `Halted`
(10_state.md R31, 60_exceptions.md R265). What a Step that is not admitted answers, the refusal `notReset` and the fault
`haltedCore e`, is the model's choice (log 5). -/
def Obligations.StatusAdmitsSteps : Prop :=
  (∀ s : State, s.status = .notReset → step s = .refused .notReset) ∧
  (∀ (s : State) (e : Error), s.status = .halted e → step s = .fault (.haltedCore e)) ∧
  (∀ s : State, s.status = .running → (∃ t, step s = .next t) ∨ ∃ e, step s = .fault (.raised e)) ∧
  (∀ memSize stackSize zeroFill draw s, construct memSize stackSize zeroFill draw = .ok s → s.status = .notReset) ∧
  (∀ s : State, s.doReset.status = .running) ∧
  (∀ (s : State) (e : Error), step s = .fault (.raised e) → (afterStep s).status = .halted e)

/-- A halted core stays as the error left it through any number of steps and any Load, and only Reset makes it run
(60_exceptions.md R265). -/
def Obligations.HaltedCoreStaysHalted : Prop :=
  ∀ (s : State) (e : Error), s.status = .halted e →
    afterStep s = s ∧ (∀ endOfRun fuel, run endOfRun fuel s = s) ∧
    (∀ image t, load s image = .ok t → t.status = .halted e) ∧ s.doReset.status = .running

/-- R126: whatever the state before, after a step register 0 is 0, its slot too. (A step that raises keeps every register:
`ErrorsArePrecise`.) -/
def Obligations.ZeroRegisterAfterEveryStep : Prop :=
  ∀ s t : State, step s = .next t → t.x[0] = 0#32 ∧ t.reg 0#5 = 0#32

/-! ### The invariant -/

/-- Every step keeps the invariant: x0 holds 0, memory is canonical and inside `MEM_SIZE`, the configuration is valid and
`stack_top` is `MEM_SIZE - 1`. -/
def Obligations.StepKeepsInvariant : Prop :=
  ∀ s t : State, Invariant s → step s = .next t → Invariant t

/-- The machine after reset meets the invariant and holds the reset values of 10_state.md R35. Its configuration and its
`stack_bottom` are the model's choice (log 1, log 2), and only the invariant's relations of them are stated. -/
def Obligations.ResetStateMeetsInvariant : Prop :=
  Invariant State.reset ∧ State.reset.pc = 0#32 ∧ State.reset.status = .running ∧
  (∀ r, State.reset.reg r = if r = 2#5 then BitVec.ofNat 32 (State.reset.cfg.memSize - 1) else 0#32)

/-- Construct gives a state that meets the invariant, and Load, Reset and a Step that raises keep it. -/
def Obligations.HostOperationsKeepInvariant : Prop :=
  (∀ memSize stackSize zeroFill draw s, construct memSize stackSize zeroFill draw = .ok s → Invariant s) ∧
  (∀ s image t, Invariant s → load s image = .ok t → Invariant t) ∧
  (∀ s : State, Invariant s → Invariant s.doReset) ∧
  (∀ s : State, Invariant s → Invariant (afterStep s))

/-! ### Whole-machine rules -/

/-- R26: the next pc of every instruction, and the unchanged pc where one raises. -/
def Obligations.NextPcOfEveryInstruction : Prop :=
  (∀ (i : Instr) (s t : State), exec i s = .next t → t.pc = i.nextPc s) ∧
  (∀ (s : State) (e : Error), step s = .fault (.raised e) → (afterStep s).pc = s.pc)

/-- R24: an instruction writes no register but the `rd` of the table, and reads none but its `rs1` and `rs2`: changing any
other register before it changes nothing of what it does and answers. -/
def Obligations.InstructionsTouchOnlyTheirRegisters : Prop :=
  (∀ (i : Instr) (s t : State) (r : RegIdx), exec i s = .next t → i.dest ≠ some r → t.reg r = s.reg r) ∧
  (∀ (i : Instr) (s : State) (r : RegIdx) (v : Word), r ∉ i.sources →
    exec i (s.setReg r v) =
      match exec i s with
      | .next t => .next (if i.dest = some r then t else t.setReg r v)
      | .fault e => .fault e
      | .refused e => .refused e)

/-- A byte of memory changes in a step only if the instruction is a store and the byte is one of those it names
(20_memory.md R61). -/
def Obligations.OnlyStoresChangeMemory : Prop :=
  ∀ (s t : State) (a : Nat), step s = .next t → t.byte a ≠ s.byte a →
    ∃ i addr n, decode (s.byte (s.pc.toNat + 3) ++ s.byte (s.pc.toNat + 2) ++ s.byte (s.pc.toNat + 1) ++ s.byte s.pc.toNat)
        = .ok i ∧
      i.access s = some (.store, addr, n) ∧ addr.toNat ≤ a ∧ a < addr.toNat + n

/-- No step writes the configuration, `stack_top` or `stack_bottom`, and one that completes leaves the core running
(10_state.md R20, R29, R30, R31). -/
def Obligations.BookkeepingIsNeverWritten : Prop :=
  ∀ s t : State, step s = .next t → SameBookkeeping s t ∧ t.status = .running

/-- No step reads `stack_top`, `stack_bottom`, `STACK_SIZE` or `ZERO_FILL`: other values of them change nothing else
(R29, R30; 92_eei_decisions.md D24). -/
def Obligations.AdvisoryValuesAreNeverRead : Prop :=
  ∀ (s : State) (top : Word) (bottom stackSize : Nat) (zeroFill : Bool),
    let change (t : State) : State := { t with
      stackTop := top, stackBottom := bottom,
      cfg := { t.cfg with stackSize := stackSize, zeroFill := zeroFill } }
    step (change s) =
      match step s with
      | .next t => .next (change t)
      | .fault e => .fault e
      | .refused e => .refused e

/-! ### Memory -/

/-- R54: `MemRead` in range gives the bytes, the one at the address in bits 7:0, at any alignment; out of range it raises. -/
def Obligations.MemReadIsLittleEndian : Prop :=
  ∀ (s : State) (kind : AccessKind) (addr : Word),
    (addr.toNat + 1 ≤ s.cfg.memSize → s.memRead kind addr 1 = .ok (s.byte addr.toNat)) ∧
    (addr.toNat + 2 ≤ s.cfg.memSize → s.memRead kind addr 2 = .ok (s.byte (addr.toNat + 1) ++ s.byte addr.toNat)) ∧
    (addr.toNat + 4 ≤ s.cfg.memSize → s.memRead kind addr 4 =
      .ok (s.byte (addr.toNat + 3) ++ s.byte (addr.toNat + 2) ++ s.byte (addr.toNat + 1) ++ s.byte addr.toNat)) ∧
    (∀ n, s.cfg.memSize < addr.toNat + n → s.memRead kind addr n = .error (.addressOutOfRange kind addr n s.pc))

/-- R55: `MemWrite` in range writes exactly its n bytes, little-endian, and changes nothing else; out of range it raises and
writes no byte. -/
def Obligations.MemWriteWritesExactlyItsBytes : Prop :=
  ∀ (s : State) (addr : Word) (n : Nat) (v : Word), s.mem.wf → n = 1 ∨ n = 2 ∨ n = 4 →
    (addr.toNat + n ≤ s.cfg.memSize →
      ∃ t, s.memWrite addr n v = .ok t ∧ OnlyBytes addr.toNat n s t ∧ t.pc = s.pc ∧
        ∀ k, k < n → t.byte (addr.toNat + k) = v.extractLsb' (8 * k) 8) ∧
    (s.cfg.memSize < addr.toNat + n → s.memWrite addr n v = .error (.addressOutOfRange .store addr n s.pc))

/-- After `MemWrite(a, n, v)`, `MemRead(a, n)` gives the low 8n bits of v (45_stores.md R203; 95 S7). -/
def Obligations.StoreThenLoadReturnsTheValue : Prop :=
  ∀ (s t : State) (kind : AccessKind) (addr : Word) (n : Nat) (v : Word), s.mem.wf → n = 1 ∨ n = 2 ∨ n = 4 →
    s.memWrite addr n v = .ok t → t.memRead kind addr n = .ok (v.extractLsb' 0 (8 * n))

/-- R60: memory is bytes. After a store of any width a read of any width sees, byte by byte, the stored value at its
little-endian positions and the old bytes elsewhere; a wider read after narrower stores sees their concatenation. -/
def Obligations.MixedWidthAccessesSeeBytes : Prop :=
  (∀ (s t : State) (addr a : Word) (v : Word) (n m : Nat), Invariant s → s.memWrite addr n v = .ok t →
    n = 1 ∨ n = 2 ∨ n = 4 → m = 1 ∨ m = 2 ∨ m = 4 → a.toNat + m ≤ s.cfg.memSize →
    ∃ r, t.memRead .load a m = .ok r ∧ ∀ k, k < m → r.extractLsb' (8 * k) 8 =
      if addr.toNat ≤ a.toNat + k ∧ a.toNat + k < addr.toNat + n
      then v.extractLsb' (8 * (a.toNat + k - addr.toNat)) 8 else s.byte (a.toNat + k)) ∧
  (∀ (s s1 s2 : State) (addr v0 v1 : Word), Invariant s →
    s.memWrite addr 1 v0 = .ok s1 → s1.memWrite (addr + 1#32) 1 v1 = .ok s2 →
    addr.toNat + 2 ≤ s.cfg.memSize → s2.memRead .load addr 2 = .ok (v1.extractLsb' 0 8 ++ v0.extractLsb' 0 8)) ∧
  (∀ (s s1 s2 : State) (addr v0 v1 : Word), Invariant s →
    s.memWrite addr 2 v0 = .ok s1 → s1.memWrite (addr + 2#32) 2 v1 = .ok s2 →
    addr.toNat + 4 ≤ s.cfg.memSize → s2.memRead .load addr 4 = .ok (v1.extractLsb' 0 16 ++ v0.extractLsb' 0 16)) ∧
  (∀ (s s1 s2 s3 s4 : State) (addr v0 v1 v2 v3 : Word), Invariant s → addr.toNat + 4 ≤ s.cfg.memSize →
    s.memWrite addr 1 v0 = .ok s1 → s1.memWrite (addr + 1#32) 1 v1 = .ok s2 →
    s2.memWrite (addr + 2#32) 1 v2 = .ok s3 → s3.memWrite (addr + 3#32) 1 v3 = .ok s4 →
    s4.memRead .load addr 4 =
      .ok (v3.extractLsb' 0 8 ++ v2.extractLsb' 0 8 ++ v1.extractLsb' 0 8 ++ v0.extractLsb' 0 8))

/-- A word stored over the next instruction is what the next step runs, with no fence between (20_memory.md R65). -/
def Obligations.StoredCodeRunsNext : Prop :=
  ∀ (s : State) (rs1 rs2 : RegIdx) (imm : BitVec 12) (j : Instr), Invariant s → s.status = .running →
    s.pc.toNat + 8 ≤ s.cfg.memSize →
    decode (s.byte (s.pc.toNat + 3) ++ s.byte (s.pc.toNat + 2) ++ s.byte (s.pc.toNat + 1) ++ s.byte s.pc.toNat)
      = .ok (.sw rs1 rs2 imm) →
    s.reg rs1 + imm.signExtend 32 = s.pc + 4#32 → decode (s.reg rs2) = .ok j →
    ∃ t, step s = .next t ∧
      step t = match exec j t with
        | .next u => .next u.reassertZero
        | .fault r => .fault r
        | .refused r => .refused r

/-- Two canonical memories that agree on every byte are one memory (the model's representation, log 3), so that a statement
about every byte is a statement about memory. -/
def Obligations.MemoryIsItsBytes : Prop :=
  ∀ m m' : Memory, m.wf → m'.wf → (∀ a, m.byte a = m'.byte a) → m = m'

/-! ### Upper immediates -/

/-- R140: LUI writes the 20 bits shifted left by 12. -/
def Obligations.LuiWritesUpperImmediate : Prop :=
  ∀ (s : State) (rd : RegIdx) (imm20 : BitVec 20),
    decode (imm20 ++ rd ++ 0x37#7) = .ok (.lui rd imm20) ∧
    ∃ t, exec (.lui rd imm20) s = .next t ∧ WroteRegister rd (BitVec.ofNat 32 (imm20.toNat * 4096)) s t

/-- R141: AUIPC adds them to its own address, modulo 2^32. -/
def Obligations.AuipcAddsToItsOwnAddress : Prop :=
  ∀ (s : State) (rd : RegIdx) (imm20 : BitVec 20),
    decode (imm20 ++ rd ++ 0x17#7) = .ok (.auipc rd imm20) ∧
    ∃ t, exec (.auipc rd imm20) s = .next t ∧
      WroteRegister rd (BitVec.ofNat 32 (s.pc.toNat + imm20.toNat * 4096)) s t

/-! ### Jumps -/

/-- R150: JAL writes pc + 4 and goes to its own address plus the offset. -/
def Obligations.JalLinksAndJumps : Prop :=
  ∀ (s : State) (rd : RegIdx) (off : BitVec 21),
    (off.getLsbD 0 = false →
      decode (off.extractLsb' 20 1 ++ off.extractLsb' 1 10 ++ off.extractLsb' 11 1 ++ off.extractLsb' 12 8 ++ rd ++ 0x6F#7)
        = .ok (.jal rd off)) ∧
    ∃ t, exec (.jal rd off) s = .next t ∧ Jumped rd (BitVec.ofInt 32 (s.pc.toNat + off.toInt)) s t

/-- R151: JALR writes pc + 4 and goes to the old `x[rs1]` plus the immediate with bit 0 cleared; another funct3 is a decode
error. -/
def Obligations.JalrLinksAndJumps : Prop :=
  ∀ (s : State) (rd rs1 : RegIdx) (imm : BitVec 12),
    decode (imm ++ rs1 ++ 0b000#3 ++ rd ++ 0x67#7) = .ok (.jalr rd rs1 imm) ∧
    (∀ f3 : BitVec 3, f3 ≠ 0b000#3 → decode (imm ++ rs1 ++ f3 ++ rd ++ 0x67#7) = .error (.funct3 f3)) ∧
    ∃ t, exec (.jalr rd rs1 imm) s = .next t ∧
      Jumped rd (BitVec.ofNat 32 ((s.reg rs1 + imm.signExtend 32).toNat / 2 * 2)) s t

/-! ### Branches -/

/-- R161, R162: BEQ and BNE. A taken branch goes to its own address plus the offset; nothing else changes. -/
def Obligations.EqualityBranches : Prop :=
  ∀ (s : State) (rs1 rs2 : RegIdx) (off : BitVec 13),
    let word (f3 : BitVec 3) : Word := off.extractLsb' 12 1 ++ off.extractLsb' 5 6 ++ rs2 ++ rs1 ++ f3
      ++ off.extractLsb' 1 4 ++ off.extractLsb' 11 1 ++ 0x63#7
    let goesTo (i : Instr) (c : Prop) : Prop := ∃ t, exec i s = .next t ∧ OnlyPc s t ∧
      (c → t.pc = BitVec.ofInt 32 (s.pc.toNat + off.toInt)) ∧ (¬c → t.pc = s.pc + 4#32)
    (off.getLsbD 0 = false →
      decode (word 0b000#3) = .ok (.beq rs1 rs2 off) ∧ decode (word 0b001#3) = .ok (.bne rs1 rs2 off)) ∧
    goesTo (.beq rs1 rs2 off) (s.reg rs1 = s.reg rs2) ∧
    goesTo (.bne rs1 rs2 off) (s.reg rs1 ≠ s.reg rs2)

/-- R163, R164: BLT and BGE compare two's-complement values. -/
def Obligations.SignedBranches : Prop :=
  ∀ (s : State) (rs1 rs2 : RegIdx) (off : BitVec 13),
    let word (f3 : BitVec 3) : Word := off.extractLsb' 12 1 ++ off.extractLsb' 5 6 ++ rs2 ++ rs1 ++ f3
      ++ off.extractLsb' 1 4 ++ off.extractLsb' 11 1 ++ 0x63#7
    let goesTo (i : Instr) (c : Prop) : Prop := ∃ t, exec i s = .next t ∧ OnlyPc s t ∧
      (c → t.pc = BitVec.ofInt 32 (s.pc.toNat + off.toInt)) ∧ (¬c → t.pc = s.pc + 4#32)
    (off.getLsbD 0 = false →
      decode (word 0b100#3) = .ok (.blt rs1 rs2 off) ∧ decode (word 0b101#3) = .ok (.bge rs1 rs2 off)) ∧
    goesTo (.blt rs1 rs2 off) ((s.reg rs1).toInt < (s.reg rs2).toInt) ∧
    goesTo (.bge rs1 rs2 off) ((s.reg rs2).toInt ≤ (s.reg rs1).toInt)

/-- R165, R166: BLTU and BGEU compare unsigned values. -/
def Obligations.UnsignedBranches : Prop :=
  ∀ (s : State) (rs1 rs2 : RegIdx) (off : BitVec 13),
    let word (f3 : BitVec 3) : Word := off.extractLsb' 12 1 ++ off.extractLsb' 5 6 ++ rs2 ++ rs1 ++ f3
      ++ off.extractLsb' 1 4 ++ off.extractLsb' 11 1 ++ 0x63#7
    let goesTo (i : Instr) (c : Prop) : Prop := ∃ t, exec i s = .next t ∧ OnlyPc s t ∧
      (c → t.pc = BitVec.ofInt 32 (s.pc.toNat + off.toInt)) ∧ (¬c → t.pc = s.pc + 4#32)
    (off.getLsbD 0 = false →
      decode (word 0b110#3) = .ok (.bltu rs1 rs2 off) ∧ decode (word 0b111#3) = .ok (.bgeu rs1 rs2 off)) ∧
    goesTo (.bltu rs1 rs2 off) ((s.reg rs1).toNat < (s.reg rs2).toNat) ∧
    goesTo (.bgeu rs1 rs2 off) ((s.reg rs2).toNat ≤ (s.reg rs1).toNat)

/-! ### Loads -/

/-- R180, R183: LB and LBU read the byte at `x[rs1] + imm` and widen it; for rd = 0 too they raise where it is out of
range. -/
def Obligations.ByteLoads : Prop :=
  ∀ (s : State) (rd rs1 : RegIdx) (imm : BitVec 12) (ea : Word), ea = s.reg rs1 + imm.signExtend 32 →
    decode (imm ++ rs1 ++ 0b000#3 ++ rd ++ 0x03#7) = .ok (.lb rd rs1 imm) ∧
    decode (imm ++ rs1 ++ 0b100#3 ++ rd ++ 0x03#7) = .ok (.lbu rd rs1 imm) ∧
    (ea.toNat + 1 ≤ s.cfg.memSize →
      (∃ t, exec (.lb rd rs1 imm) s = .next t ∧
        WroteRegister rd (BitVec.ofInt 32 (s.byte ea.toNat).toInt) s t) ∧
      (∃ t, exec (.lbu rd rs1 imm) s = .next t ∧
        WroteRegister rd (BitVec.ofNat 32 (s.byte ea.toNat).toNat) s t)) ∧
    (s.cfg.memSize < ea.toNat + 1 →
      exec (.lb rd rs1 imm) s = .fault (.raised (.addressOutOfRange .load ea 1 s.pc)) ∧
      exec (.lbu rd rs1 imm) s = .fault (.raised (.addressOutOfRange .load ea 1 s.pc)))

/-- R181, R184: LH and LHU read two bytes at any alignment, the lower in bits 7:0. -/
def Obligations.HalfwordLoads : Prop :=
  ∀ (s : State) (rd rs1 : RegIdx) (imm : BitVec 12) (ea : Word), ea = s.reg rs1 + imm.signExtend 32 →
    decode (imm ++ rs1 ++ 0b001#3 ++ rd ++ 0x03#7) = .ok (.lh rd rs1 imm) ∧
    decode (imm ++ rs1 ++ 0b101#3 ++ rd ++ 0x03#7) = .ok (.lhu rd rs1 imm) ∧
    (ea.toNat + 2 ≤ s.cfg.memSize →
      (∃ t, exec (.lh rd rs1 imm) s = .next t ∧
        WroteRegister rd (BitVec.ofInt 32 (s.byte (ea.toNat + 1) ++ s.byte ea.toNat).toInt) s t) ∧
      (∃ t, exec (.lhu rd rs1 imm) s = .next t ∧
        WroteRegister rd (BitVec.ofNat 32 (s.byte (ea.toNat + 1) ++ s.byte ea.toNat).toNat) s t)) ∧
    (s.cfg.memSize < ea.toNat + 2 →
      exec (.lh rd rs1 imm) s = .fault (.raised (.addressOutOfRange .load ea 2 s.pc)) ∧
      exec (.lhu rd rs1 imm) s = .fault (.raised (.addressOutOfRange .load ea 2 s.pc)))

/-- R182: LW reads four bytes at any alignment. -/
def Obligations.WordLoad : Prop :=
  ∀ (s : State) (rd rs1 : RegIdx) (imm : BitVec 12) (ea : Word), ea = s.reg rs1 + imm.signExtend 32 →
    decode (imm ++ rs1 ++ 0b010#3 ++ rd ++ 0x03#7) = .ok (.lw rd rs1 imm) ∧
    (ea.toNat + 4 ≤ s.cfg.memSize →
      ∃ t, exec (.lw rd rs1 imm) s = .next t ∧
        WroteRegister rd
          (s.byte (ea.toNat + 3) ++ s.byte (ea.toNat + 2) ++ s.byte (ea.toNat + 1) ++ s.byte ea.toNat) s t) ∧
    (s.cfg.memSize < ea.toNat + 4 →
      exec (.lw rd rs1 imm) s = .fault (.raised (.addressOutOfRange .load ea 4 s.pc)))

/-! ### Stores -/

/-- R200: SB writes the low byte of `x[rs2]` at `x[rs1] + imm`, and no other byte; out of range it raises. -/
def Obligations.ByteStore : Prop :=
  ∀ (s : State) (rs1 rs2 : RegIdx) (imm : BitVec 12) (ea : Word), s.mem.wf → ea = s.reg rs1 + imm.signExtend 32 →
    decode (imm.extractLsb' 5 7 ++ rs2 ++ rs1 ++ 0b000#3 ++ imm.extractLsb' 0 5 ++ 0x23#7) = .ok (.sb rs1 rs2 imm) ∧
    (ea.toNat + 1 ≤ s.cfg.memSize →
      ∃ t, exec (.sb rs1 rs2 imm) s = .next t ∧ Stored ea.toNat 1 (s.reg rs2) s t) ∧
    (s.cfg.memSize < ea.toNat + 1 →
      exec (.sb rs1 rs2 imm) s = .fault (.raised (.addressOutOfRange .store ea 1 s.pc)))

/-- R201: SH writes the low two bytes, the lower at the lower address. -/
def Obligations.HalfwordStore : Prop :=
  ∀ (s : State) (rs1 rs2 : RegIdx) (imm : BitVec 12) (ea : Word), s.mem.wf → ea = s.reg rs1 + imm.signExtend 32 →
    decode (imm.extractLsb' 5 7 ++ rs2 ++ rs1 ++ 0b001#3 ++ imm.extractLsb' 0 5 ++ 0x23#7) = .ok (.sh rs1 rs2 imm) ∧
    (ea.toNat + 2 ≤ s.cfg.memSize →
      ∃ t, exec (.sh rs1 rs2 imm) s = .next t ∧ Stored ea.toNat 2 (s.reg rs2) s t) ∧
    (s.cfg.memSize < ea.toNat + 2 →
      exec (.sh rs1 rs2 imm) s = .fault (.raised (.addressOutOfRange .store ea 2 s.pc)))

/-- R202: SW writes the four bytes. -/
def Obligations.WordStore : Prop :=
  ∀ (s : State) (rs1 rs2 : RegIdx) (imm : BitVec 12) (ea : Word), s.mem.wf → ea = s.reg rs1 + imm.signExtend 32 →
    decode (imm.extractLsb' 5 7 ++ rs2 ++ rs1 ++ 0b010#3 ++ imm.extractLsb' 0 5 ++ 0x23#7) = .ok (.sw rs1 rs2 imm) ∧
    (ea.toNat + 4 ≤ s.cfg.memSize →
      ∃ t, exec (.sw rs1 rs2 imm) s = .next t ∧ Stored ea.toNat 4 (s.reg rs2) s t) ∧
    (s.cfg.memSize < ea.toNat + 4 →
      exec (.sw rs1 rs2 imm) s = .fault (.raised (.addressOutOfRange .store ea 4 s.pc)))

/-! ### Immediate ALU -/

/-- R210: ADDI adds the signed immediate, modulo 2^32. -/
def Obligations.AddImmediate : Prop :=
  ∀ (s : State) (rd rs1 : RegIdx) (imm : BitVec 12),
    decode (imm ++ rs1 ++ 0b000#3 ++ rd ++ 0x13#7) = .ok (.addi rd rs1 imm) ∧
    ∃ t, exec (.addi rd rs1 imm) s = .next t ∧
      WroteRegister rd (BitVec.ofInt 32 ((s.reg rs1).toInt + imm.toInt)) s t

/-- R211, R212: SLTI compares signed; SLTIU compares the sign-extended immediate unsigned; each gives 0 or 1. -/
def Obligations.SetLessThanImmediate : Prop :=
  ∀ (s : State) (rd rs1 : RegIdx) (imm : BitVec 12),
    decode (imm ++ rs1 ++ 0b010#3 ++ rd ++ 0x13#7) = .ok (.slti rd rs1 imm) ∧
    decode (imm ++ rs1 ++ 0b011#3 ++ rd ++ 0x13#7) = .ok (.sltiu rd rs1 imm) ∧
    (∃ t, exec (.slti rd rs1 imm) s = .next t ∧
      WroteRegister rd (if (s.reg rs1).toInt < imm.toInt then 1#32 else 0#32) s t) ∧
    (∃ t, exec (.sltiu rd rs1 imm) s = .next t ∧
      WroteRegister rd (if (s.reg rs1).toNat < (imm.signExtend 32).toNat then 1#32 else 0#32) s t)

/-- R213, R214, R215: XORI, ORI and ANDI bit by bit; bits 31:11 of the sign-extended immediate are its bit 11. -/
def Obligations.LogicalImmediate : Prop :=
  ∀ (s : State) (rd rs1 : RegIdx) (imm : BitVec 12),
    decode (imm ++ rs1 ++ 0b100#3 ++ rd ++ 0x13#7) = .ok (.xori rd rs1 imm) ∧
    decode (imm ++ rs1 ++ 0b110#3 ++ rd ++ 0x13#7) = .ok (.ori rd rs1 imm) ∧
    decode (imm ++ rs1 ++ 0b111#3 ++ rd ++ 0x13#7) = .ok (.andi rd rs1 imm) ∧
    (∃ t v, exec (.xori rd rs1 imm) s = .next t ∧ WroteRegister rd v s t ∧
      ∀ k, k < 32 → v.getLsbD k = ((s.reg rs1).getLsbD k ^^ imm.getLsbD (min k 11))) ∧
    (∃ t v, exec (.ori rd rs1 imm) s = .next t ∧ WroteRegister rd v s t ∧
      ∀ k, k < 32 → v.getLsbD k = ((s.reg rs1).getLsbD k || imm.getLsbD (min k 11))) ∧
    (∃ t v, exec (.andi rd rs1 imm) s = .next t ∧ WroteRegister rd v s t ∧
      ∀ k, k < 32 → v.getLsbD k = ((s.reg rs1).getLsbD k && imm.getLsbD (min k 11)))

/-- R216, R217, R218: SLLI multiplies by 2^shamt modulo 2^32, SRLI divides the unsigned value and SRAI the signed one,
rounding down; every other funct7 is a decode error. -/
def Obligations.ShiftImmediate : Prop :=
  ∀ (s : State) (rd rs1 : RegIdx) (shamt : BitVec 5),
    decode (0b0000000#7 ++ shamt ++ rs1 ++ 0b001#3 ++ rd ++ 0x13#7) = .ok (.slli rd rs1 shamt) ∧
    decode (0b0000000#7 ++ shamt ++ rs1 ++ 0b101#3 ++ rd ++ 0x13#7) = .ok (.srli rd rs1 shamt) ∧
    decode (0b0100000#7 ++ shamt ++ rs1 ++ 0b101#3 ++ rd ++ 0x13#7) = .ok (.srai rd rs1 shamt) ∧
    (∀ f7 : BitVec 7, f7 ≠ 0b0000000#7 →
      decode (f7 ++ shamt ++ rs1 ++ 0b001#3 ++ rd ++ 0x13#7) = .error (.funct7 f7)) ∧
    (∀ f7 : BitVec 7, f7 ≠ 0b0000000#7 → f7 ≠ 0b0100000#7 →
      decode (f7 ++ shamt ++ rs1 ++ 0b101#3 ++ rd ++ 0x13#7) = .error (.funct7 f7)) ∧
    (∃ t, exec (.slli rd rs1 shamt) s = .next t ∧
      WroteRegister rd (BitVec.ofNat 32 ((s.reg rs1).toNat * 2 ^ shamt.toNat)) s t) ∧
    (∃ t, exec (.srli rd rs1 shamt) s = .next t ∧
      WroteRegister rd (BitVec.ofNat 32 ((s.reg rs1).toNat / 2 ^ shamt.toNat)) s t) ∧
    (∃ t, exec (.srai rd rs1 shamt) s = .next t ∧
      WroteRegister rd (BitVec.ofInt 32 ((s.reg rs1).toInt / 2 ^ shamt.toNat)) s t)

/-! ### Register ALU -/

/-- R230, R231: ADD and SUB modulo 2^32. -/
def Obligations.AddSubRegister : Prop :=
  ∀ (s : State) (rd rs1 rs2 : RegIdx),
    decode (0b0000000#7 ++ rs2 ++ rs1 ++ 0b000#3 ++ rd ++ 0x33#7) = .ok (.add rd rs1 rs2) ∧
    decode (0b0100000#7 ++ rs2 ++ rs1 ++ 0b000#3 ++ rd ++ 0x33#7) = .ok (.sub rd rs1 rs2) ∧
    (∃ t, exec (.add rd rs1 rs2) s = .next t ∧
      WroteRegister rd (BitVec.ofNat 32 ((s.reg rs1).toNat + (s.reg rs2).toNat)) s t) ∧
    (∃ t, exec (.sub rd rs1 rs2) s = .next t ∧
      WroteRegister rd (BitVec.ofInt 32 ((s.reg rs1).toInt - (s.reg rs2).toInt)) s t)

/-- R233, R234: SLT compares signed, SLTU unsigned; each gives 0 or 1. -/
def Obligations.SetLessThanRegister : Prop :=
  ∀ (s : State) (rd rs1 rs2 : RegIdx),
    decode (0b0000000#7 ++ rs2 ++ rs1 ++ 0b010#3 ++ rd ++ 0x33#7) = .ok (.slt rd rs1 rs2) ∧
    decode (0b0000000#7 ++ rs2 ++ rs1 ++ 0b011#3 ++ rd ++ 0x33#7) = .ok (.sltu rd rs1 rs2) ∧
    (∃ t, exec (.slt rd rs1 rs2) s = .next t ∧
      WroteRegister rd (if (s.reg rs1).toInt < (s.reg rs2).toInt then 1#32 else 0#32) s t) ∧
    (∃ t, exec (.sltu rd rs1 rs2) s = .next t ∧
      WroteRegister rd (if (s.reg rs1).toNat < (s.reg rs2).toNat then 1#32 else 0#32) s t)

/-- R235, R238, R239: XOR, OR and AND bit by bit. -/
def Obligations.LogicalRegister : Prop :=
  ∀ (s : State) (rd rs1 rs2 : RegIdx),
    decode (0b0000000#7 ++ rs2 ++ rs1 ++ 0b100#3 ++ rd ++ 0x33#7) = .ok (.xor rd rs1 rs2) ∧
    decode (0b0000000#7 ++ rs2 ++ rs1 ++ 0b110#3 ++ rd ++ 0x33#7) = .ok (.or rd rs1 rs2) ∧
    decode (0b0000000#7 ++ rs2 ++ rs1 ++ 0b111#3 ++ rd ++ 0x33#7) = .ok (.and rd rs1 rs2) ∧
    (∃ t v, exec (.xor rd rs1 rs2) s = .next t ∧ WroteRegister rd v s t ∧
      ∀ k, v.getLsbD k = ((s.reg rs1).getLsbD k ^^ (s.reg rs2).getLsbD k)) ∧
    (∃ t v, exec (.or rd rs1 rs2) s = .next t ∧ WroteRegister rd v s t ∧
      ∀ k, v.getLsbD k = ((s.reg rs1).getLsbD k || (s.reg rs2).getLsbD k)) ∧
    (∃ t v, exec (.and rd rs1 rs2) s = .next t ∧ WroteRegister rd v s t ∧
      ∀ k, v.getLsbD k = ((s.reg rs1).getLsbD k && (s.reg rs2).getLsbD k))

/-- R232, R236, R237, R240: SLL, SRL and SRA shift by `x[rs2]` modulo 32; a funct7 that R97 does not list for OP is a decode
error. -/
def Obligations.ShiftRegister : Prop :=
  ∀ (s : State) (rd rs1 rs2 : RegIdx),
    decode (0b0000000#7 ++ rs2 ++ rs1 ++ 0b001#3 ++ rd ++ 0x33#7) = .ok (.sll rd rs1 rs2) ∧
    decode (0b0000000#7 ++ rs2 ++ rs1 ++ 0b101#3 ++ rd ++ 0x33#7) = .ok (.srl rd rs1 rs2) ∧
    decode (0b0100000#7 ++ rs2 ++ rs1 ++ 0b101#3 ++ rd ++ 0x33#7) = .ok (.sra rd rs1 rs2) ∧
    (∀ (f7 : BitVec 7) (f3 : BitVec 3), f7 ≠ 0b0000000#7 → ¬(f7 = 0b0100000#7 ∧ (f3 = 0b000#3 ∨ f3 = 0b101#3)) →
      decode (f7 ++ rs2 ++ rs1 ++ f3 ++ rd ++ 0x33#7) = .error (.funct7 f7)) ∧
    (∃ t, exec (.sll rd rs1 rs2) s = .next t ∧
      WroteRegister rd (BitVec.ofNat 32 ((s.reg rs1).toNat * 2 ^ ((s.reg rs2).toNat % 32))) s t) ∧
    (∃ t, exec (.srl rd rs1 rs2) s = .next t ∧
      WroteRegister rd (BitVec.ofNat 32 ((s.reg rs1).toNat / 2 ^ ((s.reg rs2).toNat % 32))) s t) ∧
    (∃ t, exec (.sra rd rs1 rs2) s = .next t ∧
      WroteRegister rd (BitVec.ofInt 32 ((s.reg rs1).toInt / 2 ^ ((s.reg rs2).toNat % 32))) s t)

/-! ### System -/

/-- R250, R251, R252: FENCE, ECALL and EBREAK, whatever their ignored fields hold, change nothing but the pc, which advances
by 4. -/
def Obligations.SystemInstructionsOnlyAdvance : Prop :=
  ∀ (s : State) (rd rs1 : RegIdx) (imm : BitVec 12),
    decode (imm ++ rs1 ++ 0b000#3 ++ rd ++ 0x0F#7) = .ok (.fence rd rs1 imm) ∧
    (∀ f3 : BitVec 3, f3 ≠ 0b000#3 → decode (imm ++ rs1 ++ f3 ++ rd ++ 0x0F#7) = .error (.funct3 f3)) ∧
    decode (0x000#12 ++ rs1 ++ 0b000#3 ++ rd ++ 0x73#7) = .ok (.ecall rd rs1) ∧
    decode (0x001#12 ++ rs1 ++ 0b000#3 ++ rd ++ 0x73#7) = .ok (.ebreak rd rs1) ∧
    (∃ t, exec (.fence rd rs1 imm) s = .next t ∧ t.pc = s.pc + 4#32 ∧ OnlyPc s t) ∧
    (∃ t, exec (.ecall rd rs1) s = .next t ∧ t.pc = s.pc + 4#32 ∧ OnlyPc s t) ∧
    (∃ t, exec (.ebreak rd rs1) s = .next t ∧ t.pc = s.pc + 4#32 ∧ OnlyPc s t)

/-! ### The host's operations -/

/-- Construct succeeds exactly on valid sizes, and what the new state holds, whatever the draw (70_reset_and_hazards.md R290,
R291). That a drawn list which is too short reads 0x00 beyond its end (log 17), and that an address past `MEM_SIZE` reads
0x00 (log 3), are the model's choices. -/
def Obligations.ConstructChecksItsSizes : Prop :=
  ∀ (memSize stackSize : Int) (zeroFill : Bool) (draw : Draw),
    (0 < stackSize ∧ stackSize ≤ memSize ∧ memSize < 2 ^ 32 →
      ∃ s, construct memSize stackSize zeroFill draw = .ok s ∧
        (s.cfg.memSize : Int) = memSize ∧ (s.cfg.stackSize : Int) = stackSize ∧ s.cfg.zeroFill = zeroFill ∧
        (s.stackTop.toNat : Int) = memSize - 1 ∧
        (zeroFill = true → ∀ a, s.byte a = 0#8) ∧
        (zeroFill = false → ∀ a, a < s.cfg.memSize → s.byte a = (draw.initMem[a]?).getD 0#8) ∧
        s.reg 0#5 = 0#32 ∧ (∀ r, r ≠ 0#5 → s.reg r = draw.regs[r.toNat]'r.isLt) ∧
        s.pc = draw.pc ∧ s.stackBottom = draw.stackBottom ∧ s.status = .notReset) ∧
    (stackSize ≤ 0 ∨ memSize < stackSize ∨ 2 ^ 32 ≤ memSize →
      construct memSize stackSize zeroFill draw = .error .constructionError)

/-- R292, R293, R294: Load copies the image to address 0, sets `stack_bottom` and changes nothing else, in every status; an
empty or oversized image is an error. -/
def Obligations.LoadCopiesTheImage : Prop :=
  ∀ (s : State) (image : List Byte), s.mem.wf →
    (0 < image.length → image.length < s.cfg.memSize →
      ∃ t, load s image = .ok t ∧ (∀ k, k < image.length → image[k]? = some (t.byte k)) ∧
        (∀ a, image.length ≤ a → t.byte a = s.byte a) ∧ t.stackBottom = image.length ∧ SameRegs s t ∧
        t.pc = s.pc ∧ t.status = s.status ∧ t.cfg = s.cfg ∧ t.stackTop = s.stackTop) ∧
    (image.length = 0 ∨ s.cfg.memSize ≤ image.length → load s image = .error .loadError)

/-- Reset zeroes the registers, sets x2 to the stack top, which is `MEM_SIZE - 1`, and pc to 0, makes the core run from
every status, changes nothing else, and is idempotent; no Step and no Load leaves `NotReset` or `Halted`
(70_reset_and_hazards.md R295). That x2 takes `stack_top` also in states that no run reaches is the model's choice (log 25);
that Reset sets `status` and keeps memory and `stack_bottom` is the spec's own reading (92_eei_decisions.md D17). -/
def Obligations.ResetSetsRegistersAndPc : Prop :=
  ∀ s : State,
    (∀ r, r ≠ 2#5 → s.doReset.reg r = 0#32) ∧ s.doReset.reg 2#5 = s.stackTop ∧
    (Invariant s → (s.doReset.reg 2#5).toNat = s.cfg.memSize - 1) ∧
    s.doReset.pc = 0#32 ∧ s.doReset.status = .running ∧
    SameBytes s s.doReset ∧ s.doReset.cfg = s.cfg ∧ s.doReset.stackTop = s.stackTop ∧
    s.doReset.stackBottom = s.stackBottom ∧ s.doReset.doReset = s.doReset ∧
    (s.status ≠ .running →
      (afterStep s).status = s.status ∧ ∀ image t, load s image = .ok t → t.status = s.status)

/-- R297: after Construct, Load and Reset, whatever the draw: pc is 0, x2 is `MEM_SIZE - 1`, every other register is 0, the
image is at address 0, the rest of memory is as construction left it, zero if zero-filled; no Step is admitted before. -/
def Obligations.BootGivesTheStartState : Prop :=
  ∀ (memSize stackSize : Int) (zeroFill : Bool) (draw : Draw) (s s' : State) (image : List Byte),
    construct memSize stackSize zeroFill draw = .ok s → load s image = .ok s' →
    step s = .refused .notReset ∧ step s' = .refused .notReset ∧
    s'.doReset.status = .running ∧ s'.doReset.pc = 0#32 ∧ ((s'.doReset.reg 2#5).toNat : Int) = memSize - 1 ∧
    (∀ r, r ≠ 2#5 → s'.doReset.reg r = 0#32) ∧
    (∀ k, k < image.length → image[k]? = some (s'.doReset.byte k)) ∧
    (∀ a, image.length ≤ a → s'.doReset.byte a = s.byte a) ∧
    (zeroFill = true → ∀ a, image.length ≤ a → s'.doReset.byte a = 0#8)

/-- Inspect shows all 32 registers under the names of the table of 10_state.md R23, the pc, the status and the bytes of a range
in memory; a range past the end is an error for the host (60_exceptions.md R280). That an empty range past the end is an
error too (log 19), and that registers, pc and status are answered beside the error (log 30), are the model's choices. -/
def Obligations.InspectShowsTheState : Prop :=
  abiNames = ["zero", "ra", "sp", "gp", "tp", "t0", "t1", "t2", "s0/fp", "s1", "a0", "a1", "a2", "a3", "a4", "a5",
    "a6", "a7", "s2", "s3", "s4", "s5", "s6", "s7", "s8", "s9", "s10", "s11", "t3", "t4", "t5", "t6"] ∧
  ∀ (s : State) (addr n : Nat),
    (∀ r : RegIdx, ∃ name, abiNames[r.toNat]? = some name ∧
      (inspect s addr n).1.regs[r.toNat]? = some (name, s.reg r)) ∧
    (inspect s addr n).1.regs.length = 32 ∧ (inspect s addr n).1.pc = s.pc ∧ (inspect s addr n).1.status = s.status ∧
    (addr + n ≤ s.cfg.memSize → ∃ bytes, (inspect s addr n).2 = .ok bytes ∧ bytes.length = n ∧
      ∀ k, k < n → bytes[k]? = some (s.byte (addr + k))) ∧
    (s.cfg.memSize < addr + n → (inspect s addr n).2 = .error .inspectOutOfRange)

/-- The idle idiom `jal x0, 0` leaves the state unchanged at every further step (70_reset_and_hazards.md R299). -/
def Obligations.IdleLoopKeepsTheState : Prop :=
  ∀ s : State, Invariant s → s.status = .running → s.pc.toNat + 4 ≤ s.cfg.memSize →
    s.byte (s.pc.toNat + 3) ++ s.byte (s.pc.toNat + 2) ++ s.byte (s.pc.toNat + 1) ++ s.byte s.pc.toNat = 0x0000006F#32 →
    ∀ k, Host.Core.run Sys2Proof.core k s = .next s

/-- The spec's end-to-end scenario, for every draw and with or without zero-fill (40_execution_cycle.md R129, 95 S1):
1024 bytes, 512 of stack, the image `13 01 00 FB`, Reset, one Step: x2 is -80 and pc is 4. -/
def Obligations.EndToEndScenario : Prop :=
  ∀ (zeroFill : Bool) (draw : Draw), ∃ s s' t,
    construct 1024 512 zeroFill draw = .ok s ∧ load s [0x13#8, 0x01#8, 0x00#8, 0xFB#8] = .ok s' ∧
    s'.doReset.reg 2#5 = 1023#32 ∧ step s'.doReset = .next t ∧
    (t.reg 2#5).toInt = -80 ∧ t.pc = 4#32 ∧ t.status = .running ∧ t.stackBottom = 4 ∧
    (∀ r, r ≠ 2#5 → t.reg r = 0#32)
end

