-- ==== Sys2Proof/Laws/Decode.lean ====
section
/-! SUPPORT. The bits of every layout and of every extracted field, and each field read back from each layout that has
it. The round trips of decode and encode are assembled from these. -/

namespace Sys2Proof

variable (f7 : BitVec 7) (rs2 rs1 rd : RegIdx) (f3 : BitVec 3) (op : BitVec 7)
  (imm : BitVec 12) (offB : BitVec 13) (imm20 : BitVec 20) (offJ : BitVec 21) (w : Word) (i : Nat)

/-! ### Bits of the fields -/

theorem getLsbD_opcodeOf : (opcodeOf w).getLsbD i = (decide (i < 7) && w.getLsbD i) := by simp [opcodeOf]
theorem getLsbD_rdOf : (rdOf w).getLsbD i = (decide (i < 5) && w.getLsbD (7 + i)) := by simp [rdOf]
theorem getLsbD_funct3Of : (funct3Of w).getLsbD i = (decide (i < 3) && w.getLsbD (12 + i)) := by simp [funct3Of]
theorem getLsbD_rs1Of : (rs1Of w).getLsbD i = (decide (i < 5) && w.getLsbD (15 + i)) := by simp [rs1Of]
theorem getLsbD_rs2Of : (rs2Of w).getLsbD i = (decide (i < 5) && w.getLsbD (20 + i)) := by simp [rs2Of]
theorem getLsbD_shamtOf : (shamtOf w).getLsbD i = (decide (i < 5) && w.getLsbD (20 + i)) := by simp [shamtOf]
theorem getLsbD_funct7Of : (funct7Of w).getLsbD i = (decide (i < 7) && w.getLsbD (25 + i)) := by simp [funct7Of]
theorem getLsbD_funct12Of : (funct12Of w).getLsbD i = (decide (i < 12) && w.getLsbD (20 + i)) := by simp [funct12Of]
theorem getLsbD_immIOf : (immIOf w).getLsbD i = (decide (i < 12) && w.getLsbD (20 + i)) := by simp [immIOf]
theorem getLsbD_imm20Of : (imm20Of w).getLsbD i = (decide (i < 20) && w.getLsbD (12 + i)) := by simp [imm20Of]

theorem getLsbD_immSOf :
    (immSOf w).getLsbD i = if i < 5 then w.getLsbD (7 + i) else (decide (i < 12) && w.getLsbD (20 + i)) := by
  show BitVec.getLsbD (w.extractLsb' 25 7 ++ w.extractLsb' 7 5 : BitVec (7 + 5)) i = _
  simp only [BitVec.getLsbD_append, BitVec.getLsbD_extractLsb']
  by_cases h : i < 5
  · simp [h]
  · have e : 25 + (i - 5) = 20 + i := by omega
    have d : (i - 5 < 7) ↔ i < 12 := by omega
    simp [h, e, d]

theorem getLsbD_offBOf : (offBOf w).getLsbD i =
    if i < 1 then false else if i < 5 then w.getLsbD (7 + i) else if i < 11 then w.getLsbD (20 + i)
    else if i < 12 then w.getLsbD 7 else (decide (i < 13) && w.getLsbD 31) := by
  show BitVec.getLsbD (w.extractLsb' 31 1 ++ w.extractLsb' 7 1 ++ w.extractLsb' 25 6 ++ w.extractLsb' 8 4 ++ 0#1 :
    BitVec (1 + 1 + 6 + 4 + 1)) i = _
  simp only [BitVec.getLsbD_append, BitVec.getLsbD_extractLsb']
  by_cases hi : i < 13
  · interval_cases i <;> simp
  · have h1 : ¬ i < 1 := by omega
    have h2 : ¬ i - 1 < 4 := by omega
    have h3 : ¬ i - 1 - 4 < 6 := by omega
    have h4 : ¬ i - 1 - 4 - 6 < 1 := by omega
    have h5 : ¬ i - 1 - 4 - 6 - 1 < 1 := by omega
    simp [h2, h3, h4, h5, hi, show ¬ i < 5 by omega, show ¬ i < 11 by omega, show ¬ i < 12 by omega, show i ≠ 0 by omega]

theorem getLsbD_offJOf : (offJOf w).getLsbD i =
    if i < 1 then false else if i < 11 then w.getLsbD (20 + i) else if i < 12 then w.getLsbD 20
    else if i < 20 then w.getLsbD i else (decide (i < 21) && w.getLsbD 31) := by
  show BitVec.getLsbD (w.extractLsb' 31 1 ++ w.extractLsb' 12 8 ++ w.extractLsb' 20 1 ++ w.extractLsb' 21 10 ++ 0#1 :
    BitVec (1 + 8 + 1 + 10 + 1)) i = _
  simp only [BitVec.getLsbD_append, BitVec.getLsbD_extractLsb']
  by_cases hi : i < 21
  · interval_cases i <;> simp
  · have h2 : ¬ i - 1 < 10 := by omega
    have h3 : ¬ i - 1 - 10 < 1 := by omega
    have h4 : ¬ i - 1 - 10 - 1 < 8 := by omega
    have h5 : ¬ i - 1 - 10 - 1 - 8 < 1 := by omega
    simp [h2, h3, h4, h5, hi, show ¬ i < 11 by omega, show ¬ i < 12 by omega, show ¬ i < 20 by omega, show i ≠ 0 by omega]

/-! ### Bits of the layouts -/

theorem getLsbD_encR : (encR f7 rs2 rs1 f3 rd op).getLsbD i =
    if i < 7 then op.getLsbD i else if i < 12 then rd.getLsbD (i - 7) else if i < 15 then f3.getLsbD (i - 12)
    else if i < 20 then rs1.getLsbD (i - 15) else if i < 25 then rs2.getLsbD (i - 20) else f7.getLsbD (i - 25) := by
  show BitVec.getLsbD (f7 ++ rs2 ++ rs1 ++ f3 ++ rd ++ op : BitVec (7 + 5 + 5 + 3 + 5 + 7)) i = _
  simp only [BitVec.getLsbD_append]
  split_ifs <;> first | rfl | omega

theorem getLsbD_encI : (encI imm rs1 f3 rd op).getLsbD i =
    if i < 7 then op.getLsbD i else if i < 12 then rd.getLsbD (i - 7) else if i < 15 then f3.getLsbD (i - 12)
    else if i < 20 then rs1.getLsbD (i - 15) else imm.getLsbD (i - 20) := by
  show BitVec.getLsbD (imm ++ rs1 ++ f3 ++ rd ++ op : BitVec (12 + 5 + 3 + 5 + 7)) i = _
  simp only [BitVec.getLsbD_append]
  split_ifs <;> first | rfl | omega

theorem getLsbD_encU : (encU imm20 rd op).getLsbD i =
    if i < 7 then op.getLsbD i else if i < 12 then rd.getLsbD (i - 7) else imm20.getLsbD (i - 12) := by
  show BitVec.getLsbD (imm20 ++ rd ++ op : BitVec (20 + 5 + 7)) i = _
  simp only [BitVec.getLsbD_append]
  split_ifs <;> first | rfl | omega

theorem getLsbD_encS : (encS imm rs2 rs1 f3 op).getLsbD i =
    if i < 7 then op.getLsbD i else if i < 12 then imm.getLsbD (i - 7) else if i < 15 then f3.getLsbD (i - 12)
    else if i < 20 then rs1.getLsbD (i - 15) else if i < 25 then rs2.getLsbD (i - 20)
    else imm.getLsbD (i - 20) := by
  show BitVec.getLsbD (imm.extractLsb' 5 7 ++ rs2 ++ rs1 ++ f3 ++ imm.extractLsb' 0 5 ++ op :
    BitVec (7 + 5 + 5 + 3 + 5 + 7)) i = _
  simp only [BitVec.getLsbD_append, BitVec.getLsbD_extractLsb']
  by_cases hi : i < 32
  · interval_cases i <;> simp
  · simp [show ¬ i < 7 by omega, show ¬ i < 12 by omega, show ¬ i < 15 by omega, show ¬ i < 20 by omega,
      show ¬ i < 25 by omega, show ¬ i - 7 < 5 by omega, show ¬ i - 7 - 5 < 3 by omega,
      show ¬ i - 7 - 5 - 3 < 5 by omega, show ¬ i - 7 - 5 - 3 - 5 < 5 by omega, show ¬ i - 7 - 5 - 3 - 5 - 5 < 7 by omega,
      show 12 ≤ i - 20 by omega]

theorem getLsbD_encB : (encB offB rs2 rs1 f3 op).getLsbD i =
    if i < 7 then op.getLsbD i else if i < 8 then offB.getLsbD 11 else if i < 12 then offB.getLsbD (i - 7)
    else if i < 15 then f3.getLsbD (i - 12) else if i < 20 then rs1.getLsbD (i - 15)
    else if i < 25 then rs2.getLsbD (i - 20) else if i < 31 then offB.getLsbD (i - 20)
    else (decide (i < 32) && offB.getLsbD 12) := by
  show BitVec.getLsbD (offB.extractLsb' 12 1 ++ offB.extractLsb' 5 6 ++ rs2 ++ rs1 ++ f3
    ++ offB.extractLsb' 1 4 ++ offB.extractLsb' 11 1 ++ op : BitVec (1 + 6 + 5 + 5 + 3 + 4 + 1 + 7)) i = _
  simp only [BitVec.getLsbD_append, BitVec.getLsbD_extractLsb']
  by_cases hi : i < 32
  · interval_cases i <;> simp
  · simp [show ¬ i < 7 by omega, show ¬ i < 8 by omega, show ¬ i < 12 by omega, show ¬ i < 15 by omega,
      show ¬ i < 20 by omega, show ¬ i < 25 by omega, show ¬ i < 31 by omega, hi, show ¬ i - 7 < 1 by omega,
      show ¬ i - 7 - 1 < 4 by omega, show ¬ i - 7 - 1 - 4 < 3 by omega, show ¬ i - 7 - 1 - 4 - 3 < 5 by omega,
      show ¬ i - 7 - 1 - 4 - 3 - 5 < 5 by omega, show ¬ i - 7 - 1 - 4 - 3 - 5 - 5 < 6 by omega,
      show ¬ i - 7 - 1 - 4 - 3 - 5 - 5 - 6 < 1 by omega]

theorem getLsbD_encJ : (encJ offJ rd op).getLsbD i =
    if i < 7 then op.getLsbD i else if i < 12 then rd.getLsbD (i - 7) else if i < 20 then offJ.getLsbD i
    else if i < 21 then offJ.getLsbD 11 else if i < 31 then offJ.getLsbD (i - 20)
    else (decide (i < 32) && offJ.getLsbD 20) := by
  show BitVec.getLsbD (offJ.extractLsb' 20 1 ++ offJ.extractLsb' 1 10 ++ offJ.extractLsb' 11 1
    ++ offJ.extractLsb' 12 8 ++ rd ++ op : BitVec (1 + 10 + 1 + 8 + 5 + 7)) i = _
  simp only [BitVec.getLsbD_append, BitVec.getLsbD_extractLsb']
  by_cases hi : i < 32
  · interval_cases i <;> simp
  · simp [show ¬ i < 7 by omega, show ¬ i < 12 by omega, show ¬ i < 20 by omega, show ¬ i < 21 by omega,
      show ¬ i < 31 by omega, hi, show ¬ i - 7 < 5 by omega, show ¬ i - 7 - 5 < 8 by omega,
      show ¬ i - 7 - 5 - 8 < 1 by omega, show ¬ i - 7 - 5 - 8 - 1 < 10 by omega, show ¬ i - 7 - 5 - 8 - 1 - 10 < 1 by omega]

/-! ### A field of a layout is the operand the layout puts there -/

@[simp] theorem opcodeOf_encR : opcodeOf (encR f7 rs2 rs1 f3 rd op) = op := by
  refine BitVec.eq_of_getLsbD_eq fun i hi => ?_
  rw [getLsbD_opcodeOf, getLsbD_encR]; interval_cases i <;> simp

@[simp] theorem rdOf_encR : rdOf (encR f7 rs2 rs1 f3 rd op) = rd := by
  refine BitVec.eq_of_getLsbD_eq fun i hi => ?_
  rw [getLsbD_rdOf, getLsbD_encR]; interval_cases i <;> simp

@[simp] theorem funct3Of_encR : funct3Of (encR f7 rs2 rs1 f3 rd op) = f3 := by
  refine BitVec.eq_of_getLsbD_eq fun i hi => ?_
  rw [getLsbD_funct3Of, getLsbD_encR]; interval_cases i <;> simp

@[simp] theorem rs1Of_encR : rs1Of (encR f7 rs2 rs1 f3 rd op) = rs1 := by
  refine BitVec.eq_of_getLsbD_eq fun i hi => ?_
  rw [getLsbD_rs1Of, getLsbD_encR]; interval_cases i <;> simp

@[simp] theorem rs2Of_encR : rs2Of (encR f7 rs2 rs1 f3 rd op) = rs2 := by
  refine BitVec.eq_of_getLsbD_eq fun i hi => ?_
  rw [getLsbD_rs2Of, getLsbD_encR]; interval_cases i <;> simp

@[simp] theorem shamtOf_encR : shamtOf (encR f7 rs2 rs1 f3 rd op) = rs2 := by
  refine BitVec.eq_of_getLsbD_eq fun i hi => ?_
  rw [getLsbD_shamtOf, getLsbD_encR]; interval_cases i <;> simp

@[simp] theorem funct7Of_encR : funct7Of (encR f7 rs2 rs1 f3 rd op) = f7 := by
  refine BitVec.eq_of_getLsbD_eq fun i hi => ?_
  rw [getLsbD_funct7Of, getLsbD_encR]; interval_cases i <;> simp


@[simp] theorem opcodeOf_encI : opcodeOf (encI imm rs1 f3 rd op) = op := by
  refine BitVec.eq_of_getLsbD_eq fun i hi => ?_
  rw [getLsbD_opcodeOf, getLsbD_encI]; interval_cases i <;> simp

@[simp] theorem rdOf_encI : rdOf (encI imm rs1 f3 rd op) = rd := by
  refine BitVec.eq_of_getLsbD_eq fun i hi => ?_
  rw [getLsbD_rdOf, getLsbD_encI]; interval_cases i <;> simp

@[simp] theorem funct3Of_encI : funct3Of (encI imm rs1 f3 rd op) = f3 := by
  refine BitVec.eq_of_getLsbD_eq fun i hi => ?_
  rw [getLsbD_funct3Of, getLsbD_encI]; interval_cases i <;> simp

@[simp] theorem rs1Of_encI : rs1Of (encI imm rs1 f3 rd op) = rs1 := by
  refine BitVec.eq_of_getLsbD_eq fun i hi => ?_
  rw [getLsbD_rs1Of, getLsbD_encI]; interval_cases i <;> simp

@[simp] theorem immIOf_encI : immIOf (encI imm rs1 f3 rd op) = imm := by
  refine BitVec.eq_of_getLsbD_eq fun i hi => ?_
  rw [getLsbD_immIOf, getLsbD_encI]; interval_cases i <;> simp

@[simp] theorem funct12Of_encI : funct12Of (encI imm rs1 f3 rd op) = imm := by
  refine BitVec.eq_of_getLsbD_eq fun i hi => ?_
  rw [getLsbD_funct12Of, getLsbD_encI]; interval_cases i <;> simp


@[simp] theorem opcodeOf_encS : opcodeOf (encS imm rs2 rs1 f3 op) = op := by
  refine BitVec.eq_of_getLsbD_eq fun i hi => ?_
  rw [getLsbD_opcodeOf, getLsbD_encS]; interval_cases i <;> simp

@[simp] theorem funct3Of_encS : funct3Of (encS imm rs2 rs1 f3 op) = f3 := by
  refine BitVec.eq_of_getLsbD_eq fun i hi => ?_
  rw [getLsbD_funct3Of, getLsbD_encS]; interval_cases i <;> simp

@[simp] theorem rs1Of_encS : rs1Of (encS imm rs2 rs1 f3 op) = rs1 := by
  refine BitVec.eq_of_getLsbD_eq fun i hi => ?_
  rw [getLsbD_rs1Of, getLsbD_encS]; interval_cases i <;> simp

@[simp] theorem rs2Of_encS : rs2Of (encS imm rs2 rs1 f3 op) = rs2 := by
  refine BitVec.eq_of_getLsbD_eq fun i hi => ?_
  rw [getLsbD_rs2Of, getLsbD_encS]; interval_cases i <;> simp

@[simp] theorem immSOf_encS : immSOf (encS imm rs2 rs1 f3 op) = imm := by
  refine BitVec.eq_of_getLsbD_eq fun i hi => ?_
  simp only [getLsbD_immSOf, getLsbD_encS]; interval_cases i <;> simp


@[simp] theorem opcodeOf_encB : opcodeOf (encB offB rs2 rs1 f3 op) = op := by
  refine BitVec.eq_of_getLsbD_eq fun i hi => ?_
  rw [getLsbD_opcodeOf, getLsbD_encB]; interval_cases i <;> simp

@[simp] theorem funct3Of_encB : funct3Of (encB offB rs2 rs1 f3 op) = f3 := by
  refine BitVec.eq_of_getLsbD_eq fun i hi => ?_
  rw [getLsbD_funct3Of, getLsbD_encB]; interval_cases i <;> simp

@[simp] theorem rs1Of_encB : rs1Of (encB offB rs2 rs1 f3 op) = rs1 := by
  refine BitVec.eq_of_getLsbD_eq fun i hi => ?_
  rw [getLsbD_rs1Of, getLsbD_encB]; interval_cases i <;> simp

@[simp] theorem rs2Of_encB : rs2Of (encB offB rs2 rs1 f3 op) = rs2 := by
  refine BitVec.eq_of_getLsbD_eq fun i hi => ?_
  rw [getLsbD_rs2Of, getLsbD_encB]; interval_cases i <;> simp


@[simp] theorem opcodeOf_encU : opcodeOf (encU imm20 rd op) = op := by
  refine BitVec.eq_of_getLsbD_eq fun i hi => ?_
  rw [getLsbD_opcodeOf, getLsbD_encU]; interval_cases i <;> simp

@[simp] theorem rdOf_encU : rdOf (encU imm20 rd op) = rd := by
  refine BitVec.eq_of_getLsbD_eq fun i hi => ?_
  rw [getLsbD_rdOf, getLsbD_encU]; interval_cases i <;> simp

@[simp] theorem imm20Of_encU : imm20Of (encU imm20 rd op) = imm20 := by
  refine BitVec.eq_of_getLsbD_eq fun i hi => ?_
  rw [getLsbD_imm20Of, getLsbD_encU]; interval_cases i <;> simp


@[simp] theorem opcodeOf_encJ : opcodeOf (encJ offJ rd op) = op := by
  refine BitVec.eq_of_getLsbD_eq fun i hi => ?_
  rw [getLsbD_opcodeOf, getLsbD_encJ]; interval_cases i <;> simp

@[simp] theorem rdOf_encJ : rdOf (encJ offJ rd op) = rd := by
  refine BitVec.eq_of_getLsbD_eq fun i hi => ?_
  rw [getLsbD_rdOf, getLsbD_encJ]; interval_cases i <;> simp

theorem offBOf_encB (h : offB.getLsbD 0 = false) : offBOf (encB offB rs2 rs1 f3 op) = offB := by
  refine BitVec.eq_of_getLsbD_eq fun i hi => ?_
  rw [getLsbD_offBOf]; simp only [getLsbD_encB]
  interval_cases i <;> simp_all

theorem offJOf_encJ (h : offJ.getLsbD 0 = false) : offJOf (encJ offJ rd op) = offJ := by
  refine BitVec.eq_of_getLsbD_eq fun i hi => ?_
  rw [getLsbD_offJOf]; simp only [getLsbD_encJ]
  interval_cases i <;> simp_all

@[simp] theorem offBOf_even : (offBOf w).getLsbD 0 = false := by rw [getLsbD_offBOf]; rfl
@[simp] theorem offJOf_even : (offJOf w).getLsbD 0 = false := by rw [getLsbD_offJOf]; rfl

/-! ### A word is the layout of its own fields -/

theorem encR_fields : encR (funct7Of w) (rs2Of w) (rs1Of w) (funct3Of w) (rdOf w) (opcodeOf w) = w := by
  refine BitVec.eq_of_getLsbD_eq fun i hi => ?_
  simp only [getLsbD_encR, getLsbD_funct7Of, getLsbD_rs2Of, getLsbD_rs1Of, getLsbD_funct3Of, getLsbD_rdOf, getLsbD_opcodeOf]
  interval_cases i <;> simp

theorem encI_fields : encI (immIOf w) (rs1Of w) (funct3Of w) (rdOf w) (opcodeOf w) = w := by
  refine BitVec.eq_of_getLsbD_eq fun i hi => ?_
  simp only [getLsbD_encI, getLsbD_immIOf, getLsbD_rs1Of, getLsbD_funct3Of, getLsbD_rdOf, getLsbD_opcodeOf]
  interval_cases i <;> simp

theorem encS_fields : encS (immSOf w) (rs2Of w) (rs1Of w) (funct3Of w) (opcodeOf w) = w := by
  refine BitVec.eq_of_getLsbD_eq fun i hi => ?_
  simp only [getLsbD_encS, getLsbD_immSOf, getLsbD_rs2Of, getLsbD_rs1Of, getLsbD_funct3Of, getLsbD_opcodeOf]
  interval_cases i <;> simp

theorem encB_fields : encB (offBOf w) (rs2Of w) (rs1Of w) (funct3Of w) (opcodeOf w) = w := by
  refine BitVec.eq_of_getLsbD_eq fun i hi => ?_
  simp only [getLsbD_encB, getLsbD_offBOf, getLsbD_rs2Of, getLsbD_rs1Of, getLsbD_funct3Of, getLsbD_opcodeOf]
  interval_cases i <;> simp

theorem encU_fields : encU (imm20Of w) (rdOf w) (opcodeOf w) = w := by
  refine BitVec.eq_of_getLsbD_eq fun i hi => ?_
  simp only [getLsbD_encU, getLsbD_imm20Of, getLsbD_rdOf, getLsbD_opcodeOf]
  interval_cases i <;> simp

theorem encJ_fields : encJ (offJOf w) (rdOf w) (opcodeOf w) = w := by
  refine BitVec.eq_of_getLsbD_eq fun i hi => ?_
  simp only [getLsbD_encJ, getLsbD_offJOf, getLsbD_rdOf, getLsbD_opcodeOf]
  interval_cases i <;> simp

/-! ### The first level of dispatch (R92): the opcode selects the group -/

variable {w}

theorem decode_lui (h : opcodeOf w = 0x37#7) : decode w = .ok (.lui (rdOf w) (imm20Of w)) := by simp only [decode, h]; rfl

theorem decode_auipc (h : opcodeOf w = 0x17#7) : decode w = .ok (.auipc (rdOf w) (imm20Of w)) := by simp only [decode, h]; rfl

theorem decode_jal (h : opcodeOf w = 0x6F#7) : decode w = .ok (.jal (rdOf w) (offJOf w)) := by simp only [decode, h]; rfl

theorem decode_jalr (h : opcodeOf w = 0x67#7) : decode w = decodeJalr w := by simp only [decode, h]; rfl

theorem decode_branch (h : opcodeOf w = 0x63#7) : decode w = decodeBranch w := by simp only [decode, h]; rfl

theorem decode_load (h : opcodeOf w = 0x03#7) : decode w = decodeLoad w := by simp only [decode, h]; rfl

theorem decode_store (h : opcodeOf w = 0x23#7) : decode w = decodeStore w := by simp only [decode, h]; rfl

theorem decode_opImm (h : opcodeOf w = 0x13#7) : decode w = decodeOpImm w := by simp only [decode, h]; rfl

theorem decode_op (h : opcodeOf w = 0x33#7) : decode w = decodeOp w := by simp only [decode, h]; rfl

theorem decode_miscMem (h : opcodeOf w = 0x0F#7) : decode w = decodeMiscMem w := by simp only [decode, h]; rfl

theorem decode_system (h : opcodeOf w = 0x73#7) : decode w = decodeSystem w := by simp only [decode, h]; rfl

/-- Every word falls to one group, or its opcode is unknown. -/
theorem decode_groups (w : Word) :
    (opcodeOf w = 0x37#7 ∧ decode w = .ok (.lui (rdOf w) (imm20Of w))) ∨
    (opcodeOf w = 0x17#7 ∧ decode w = .ok (.auipc (rdOf w) (imm20Of w))) ∨
    (opcodeOf w = 0x6F#7 ∧ decode w = .ok (.jal (rdOf w) (offJOf w))) ∨
    (opcodeOf w = 0x67#7 ∧ decode w = decodeJalr w) ∨
    (opcodeOf w = 0x63#7 ∧ decode w = decodeBranch w) ∨
    (opcodeOf w = 0x03#7 ∧ decode w = decodeLoad w) ∨
    (opcodeOf w = 0x23#7 ∧ decode w = decodeStore w) ∨
    (opcodeOf w = 0x13#7 ∧ decode w = decodeOpImm w) ∨
    (opcodeOf w = 0x33#7 ∧ decode w = decodeOp w) ∨
    (opcodeOf w = 0x0F#7 ∧ decode w = decodeMiscMem w) ∨
    (opcodeOf w = 0x73#7 ∧ decode w = decodeSystem w) ∨
    (opcodeOf w ∉ [0x37#7, 0x17#7, 0x6F#7, 0x67#7, 0x63#7, 0x03#7, 0x23#7, 0x13#7, 0x33#7, 0x0F#7, 0x73#7] ∧
      decode w = .error (.opcode (opcodeOf w))) := by
  by_cases h : opcodeOf w ∈ [0x37#7, 0x17#7, 0x6F#7, 0x67#7, 0x63#7, 0x03#7, 0x23#7, 0x13#7, 0x33#7, 0x0F#7, 0x73#7]
  · simp only [List.mem_cons, List.not_mem_nil, or_false] at h
    rcases h with h | h | h | h | h | h | h | h | h | h | h
    · exact .inl ⟨h, decode_lui h⟩
    · exact .inr <| .inl ⟨h, decode_auipc h⟩
    · exact .inr <| .inr <| .inl ⟨h, decode_jal h⟩
    · exact .inr <| .inr <| .inr <| .inl ⟨h, decode_jalr h⟩
    · exact .inr <| .inr <| .inr <| .inr <| .inl ⟨h, decode_branch h⟩
    · exact .inr <| .inr <| .inr <| .inr <| .inr <| .inl ⟨h, decode_load h⟩
    · exact .inr <| .inr <| .inr <| .inr <| .inr <| .inr <| .inl ⟨h, decode_store h⟩
    · exact .inr <| .inr <| .inr <| .inr <| .inr <| .inr <| .inr <| .inl ⟨h, decode_opImm h⟩
    · exact .inr <| .inr <| .inr <| .inr <| .inr <| .inr <| .inr <| .inr <| .inl ⟨h, decode_op h⟩
    · exact .inr <| .inr <| .inr <| .inr <| .inr <| .inr <| .inr <| .inr <| .inr <| .inl ⟨h, decode_miscMem h⟩
    · exact .inr <| .inr <| .inr <| .inr <| .inr <| .inr <| .inr <| .inr <| .inr <| .inr <| .inl ⟨h, decode_system h⟩
  · refine .inr <| .inr <| .inr <| .inr <| .inr <| .inr <| .inr <| .inr <| .inr <| .inr <| .inr ⟨h, ?_⟩
    simp only [List.mem_cons, List.not_mem_nil, or_false, not_or] at h
    obtain ⟨h1, h2, h3, h4, h5, h6, h7, h8, h9, h10, h11⟩ := h
    simp only [decode, h1, h2, h3, h4, h5, h6, h7, h8, h9, h10, h11, if_false]

/-- A funct3 is one of its eight values. -/
theorem funct3_values (f : BitVec 3) :
    f = 0b000#3 ∨ f = 0b001#3 ∨ f = 0b010#3 ∨ f = 0b011#3 ∨ f = 0b100#3 ∨ f = 0b101#3 ∨ f = 0b110#3 ∨ f = 0b111#3 := by
  have := f.isLt
  bv_omega

end Sys2Proof
end

