-- ==== Sys2Proof/Laws/Memory.lean ====
section
/-! SUPPORT. The laws of the byte memory: every operation keeps the canonical form, and reads after writes. -/

namespace Sys2Proof.Machine.Memory

variable {m rest : Memory} {a x n : Nat} {b : Byte}

theorem wf_nil : wf [] := ⟨List.Pairwise.nil, by simp⟩

theorem wf_tail {c : Host.Cell} (h : wf (c :: rest)) : wf rest :=
  ⟨h.1.of_cons, fun d hd => h.2 d (List.mem_cons_of_mem _ hd)⟩

theorem wf_head_lt {c d : Host.Cell} (h : wf (c :: rest)) (hd : d ∈ rest) : c.1 < d.1 := List.rel_of_pairwise_cons h.1 hd

/-- An address not listed reads as the unlisted byte. -/
theorem byte_of_not_mem (h : ∀ c ∈ m, c.1 ≠ x) : byte m x = unlistedByte := by
  induction m with
  | nil => rfl
  | cons c rest ih =>
    have : x ≠ c.1 := (h c (by simp)).symm
    simp only [byte, this, if_false]
    exact ih fun d hd => h d (List.mem_cons_of_mem _ hd)

theorem byte_tail_of_le {c : Host.Cell} (h : wf (c :: rest)) (hx : x ≤ c.1) : byte rest x = unlistedByte :=
  byte_of_not_mem fun d hd => by have := wf_head_lt h hd; omega

theorem byte_consCell_of_ne (h : x ≠ a) : byte (consCell a b rest) x = byte rest x := by
  unfold consCell; split
  · rfl
  · simp [byte, h]

theorem byte_consCell_self (h : byte rest a = unlistedByte) : byte (consCell a b rest) a = b := by
  unfold consCell; split
  · rename_i hb; rw [h, hb]
  · simp [byte]

theorem mem_consCell {c : Host.Cell} (h : c ∈ consCell a b rest) : c.1 = a ∨ c ∈ rest := by
  unfold consCell at h; split at h
  · exact .inr h
  · rcases List.mem_cons.1 h with rfl | h
    · exact .inl rfl
    · exact .inr h

theorem wf_consCell (h : wf rest) (hlt : ∀ c ∈ rest, a < c.1) : wf (consCell a b rest) := by
  unfold consCell; split
  · exact h
  · rename_i hb
    refine ⟨List.Pairwise.cons hlt h.1, fun c hc => ?_⟩
    rcases List.mem_cons.1 hc with rfl | hc
    · exact hb
    · exact h.2 c hc

/-- The addresses listed after a byte write. -/
theorem mem_setByte {c : Host.Cell} (h : c ∈ setByte m a b) : c.1 = a ∨ c ∈ m := by
  induction m with
  | nil => simpa using mem_consCell h
  | cons d rest ih =>
    simp only [setByte] at h
    split_ifs at h
    · exact mem_consCell h
    · exact (mem_consCell h).imp_right (List.mem_cons_of_mem _)
    · rcases List.mem_cons.1 h with rfl | h
      · exact .inr (by simp)
      · exact (ih h).imp_right (List.mem_cons_of_mem _)

/-- A byte write keeps the canonical form. -/
theorem wf_setByte (h : wf m) : wf (setByte m a b) := by
  induction m with
  | nil => exact wf_consCell h (by simp)
  | cons c rest ih =>
    simp only [setByte]
    split_ifs with h1 h2
    · refine wf_consCell h fun d hd => ?_
      rcases List.mem_cons.1 hd with rfl | hd
      · exact h1
      · exact lt_trans h1 (wf_head_lt h hd)
    · exact wf_consCell (wf_tail h) fun d hd => h2 ▸ wf_head_lt h hd
    · have hr := ih (wf_tail h)
      refine ⟨List.Pairwise.cons (fun d hd => ?_) hr.1, fun d hd => ?_⟩
      · rcases mem_setByte hd with h' | h'
        · show c.1 < d.1; omega
        · exact wf_head_lt h h'
      · rcases List.mem_cons.1 hd with rfl | hd
        · exact h.2 _ (by simp)
        · exact hr.2 d hd

/-- A byte write leaves every other address alone, canonical or not. -/
theorem byte_setByte_of_ne (h : x ≠ a) : byte (setByte m a b) x = byte m x := by
  induction m with
  | nil => exact byte_consCell_of_ne h
  | cons c rest ih =>
    simp only [setByte]
    split_ifs with h1 h2
    · exact byte_consCell_of_ne h
    · rw [byte_consCell_of_ne h]; simp [byte, h2 ▸ h]
    · simp [byte, ih]

/-- A byte written is the byte read. -/
theorem byte_setByte_self (h : wf m) : byte (setByte m a b) a = b := by
  induction m with
  | nil => exact byte_consCell_self rfl
  | cons c rest ih =>
    simp only [setByte]
    split_ifs with h1 h2
    · refine byte_consCell_self (byte_of_not_mem fun d hd => ?_)
      rcases List.mem_cons.1 hd with hd | hd
      · rw [hd]; omega
      · have := wf_head_lt h hd; omega
    · exact byte_consCell_self (byte_tail_of_le h (by omega))
    · simp [byte, h2, ih (wf_tail h)]

/-! ### Little-endian reads and writes -/

theorem readLE_succ : readLE m a (n + 1) = (readLE m (a + 1) n ++ byte m a : BitVec (8 * n + 8)) := rfl

@[simp] theorem readLE_one : readLE m a 1 = byte m a := by
  apply BitVec.eq_of_toNat_eq
  show ((0#0 : BitVec 0) ++ byte m a : BitVec (0 + 8)).toNat = _
  rw [BitVec.toNat_append]; simp

theorem readLE_two : readLE m a 2 = byte m (a + 1) ++ byte m a := by
  rw [readLE_succ, readLE_one]

theorem readLE_four : readLE m a 4 = byte m (a + 3) ++ byte m (a + 2) ++ byte m (a + 1) ++ byte m a := by
  rw [readLE_succ, readLE_succ, readLE_two]

theorem wf_writeLE (h : wf m) (v : Word) : wf (writeLE m a n v) := by
  induction n generalizing m a v with
  | zero => exact h
  | succ n ih => exact ih (wf_setByte h) _

theorem mem_writeLE {c : Host.Cell} {v : Word} (h : c ∈ writeLE m a n v) : (a ≤ c.1 ∧ c.1 < a + n) ∨ c ∈ m := by
  induction n generalizing m a v with
  | zero => exact .inr h
  | succ n ih =>
    rcases ih h with h' | h'
    · exact .inl (by omega)
    · exact (mem_setByte h').imp_left fun h' => by omega

/-- A write leaves every byte outside its `n` bytes alone. -/
theorem byte_writeLE_outside {v : Word} (h : x < a ∨ a + n ≤ x) : byte (writeLE m a n v) x = byte m x := by
  induction n generalizing m a v with
  | zero => rfl
  | succ n ih =>
    show byte (writeLE _ (a + 1) n _) x = _
    rw [ih (by omega), byte_setByte_of_ne (by omega)]

/-- Byte `k` of a write is bits `8k+7 : 8k` of the value. -/
theorem byte_writeLE_inside {v : Word} {k : Nat} (h : wf m) (hk : k < n) :
    byte (writeLE m a n v) (a + k) = v.extractLsb' (8 * k) 8 := by
  induction n generalizing m a v k with
  | zero => omega
  | succ n ih =>
    show byte (writeLE _ (a + 1) n _) (a + k) = _
    rcases k with _ | k
    · rw [byte_writeLE_outside (by omega)]; exact byte_setByte_self h
    · have := ih (a := a + 1) (v := v >>> 8) (wf_setByte (a := a) (b := v.extractLsb' 0 8) h) (k := k) (by omega)
      rw [show a + (k + 1) = a + 1 + k by omega, this]
      apply BitVec.eq_of_getLsbD_eq
      intro i hi
      simp [hi, show 8 + (8 * k + i) = 8 * (k + 1) + i by omega]

/-! ### Copying a byte string in -/

theorem wf_copyIn (h : wf m) (bs : List Byte) : wf (copyIn m a bs) := by
  induction bs generalizing m a with
  | nil => exact h
  | cons b bs ih => exact ih (wf_setByte h)

theorem mem_copyIn {c : Host.Cell} {bs : List Byte} (h : c ∈ copyIn m a bs) :
    (a ≤ c.1 ∧ c.1 < a + bs.length) ∨ c ∈ m := by
  induction bs generalizing m a with
  | nil => exact .inr h
  | cons b bs ih =>
    rcases ih h with h' | h'
    · exact .inl (by simp; omega)
    · exact (mem_setByte h').imp_left fun h' => by simp; omega

theorem byte_copyIn_outside {bs : List Byte} (h : x < a ∨ a + bs.length ≤ x) :
    byte (copyIn m a bs) x = byte m x := by
  induction bs generalizing m a with
  | nil => rfl
  | cons b bs ih =>
    simp only [List.length_cons] at h
    show byte (copyIn _ (a + 1) bs) x = _
    rw [ih (by omega), byte_setByte_of_ne (by omega)]

theorem byte_copyIn_inside {bs : List Byte} {k : Nat} (h : wf m) (hk : k < bs.length) :
    byte (copyIn m a bs) (a + k) = bs[k] := by
  induction bs generalizing m a k with
  | nil => simp at hk
  | cons b bs ih =>
    show byte (copyIn _ (a + 1) bs) (a + k) = _
    rcases k with _ | k
    · rw [byte_copyIn_outside (by omega)]; exact byte_setByte_self h
    · rw [show a + (k + 1) = a + 1 + k by omega]
      exact ih (wf_setByte h) (by simpa using hk)

end Sys2Proof.Machine.Memory
end

