-- ==== Sys2Proof/Laws/State.lean ====
section
/-! SUPPORT. The fields of a state after each named update, and the registers after a write. -/

namespace Sys2Proof.Machine

variable (s : State) (r q : RegIdx) (v target : Word) (e : Error)

@[simp] theorem setReg_zero : s.setReg 0#5 v = s := rfl
@[simp] theorem setReg_cfg : (s.setReg r v).cfg = s.cfg := by unfold State.setReg; split <;> rfl
@[simp] theorem setReg_pc : (s.setReg r v).pc = s.pc := by unfold State.setReg; split <;> rfl
@[simp] theorem setReg_mem : (s.setReg r v).mem = s.mem := by unfold State.setReg; split <;> rfl
@[simp] theorem setReg_stackTop : (s.setReg r v).stackTop = s.stackTop := by unfold State.setReg; split <;> rfl
@[simp] theorem setReg_stackBottom : (s.setReg r v).stackBottom = s.stackBottom := by unfold State.setReg; split <;> rfl
@[simp] theorem setReg_status : (s.setReg r v).status = s.status := by unfold State.setReg; split <;> rfl

@[simp] theorem setPc_cfg : (s.setPc target).cfg = s.cfg := rfl
@[simp] theorem setPc_x : (s.setPc target).x = s.x := rfl
@[simp] theorem setPc_pc : (s.setPc target).pc = target := rfl
@[simp] theorem setPc_mem : (s.setPc target).mem = s.mem := rfl
@[simp] theorem setPc_stackTop : (s.setPc target).stackTop = s.stackTop := rfl
@[simp] theorem setPc_stackBottom : (s.setPc target).stackBottom = s.stackBottom := rfl
@[simp] theorem setPc_status : (s.setPc target).status = s.status := rfl

@[simp] theorem reassertZero_cfg : s.reassertZero.cfg = s.cfg := rfl
@[simp] theorem reassertZero_pc : s.reassertZero.pc = s.pc := rfl
@[simp] theorem reassertZero_mem : s.reassertZero.mem = s.mem := rfl
@[simp] theorem reassertZero_stackTop : s.reassertZero.stackTop = s.stackTop := rfl
@[simp] theorem reassertZero_stackBottom : s.reassertZero.stackBottom = s.stackBottom := rfl
@[simp] theorem reassertZero_status : s.reassertZero.status = s.status := rfl

@[simp] theorem takeError_cfg : (s.takeError e).cfg = s.cfg := rfl
@[simp] theorem takeError_x : (s.takeError e).x = s.x := rfl
@[simp] theorem takeError_pc : (s.takeError e).pc = s.pc := rfl
@[simp] theorem takeError_mem : (s.takeError e).mem = s.mem := rfl
@[simp] theorem takeError_stackTop : (s.takeError e).stackTop = s.stackTop := rfl
@[simp] theorem takeError_stackBottom : (s.takeError e).stackBottom = s.stackBottom := rfl
@[simp] theorem takeError_status : (s.takeError e).status = .halted e := rfl

@[simp] theorem doReset_cfg : s.doReset.cfg = s.cfg := rfl
@[simp] theorem doReset_x : s.doReset.x = resetRegs s.stackTop := rfl
@[simp] theorem doReset_pc : s.doReset.pc = 0#32 := rfl
@[simp] theorem doReset_mem : s.doReset.mem = s.mem := rfl
@[simp] theorem doReset_stackTop : s.doReset.stackTop = s.stackTop := rfl
@[simp] theorem doReset_stackBottom : s.doReset.stackBottom = s.stackBottom := rfl
@[simp] theorem doReset_status : s.doReset.status = .running := rfl

@[simp] theorem npc_eq : s.npc = s.pc + 4#32 := rfl

theorem reg_eq_slot (h : r ≠ 0#5) : s.reg r = s.x[r.toNat]'r.isLt := if_neg h

@[simp] theorem setPc_reg : (s.setPc target).reg r = s.reg r := rfl
@[simp] theorem takeError_reg : (s.takeError e).reg r = s.reg r := rfl
@[simp] theorem setPc_byte (a : Nat) : (s.setPc target).byte a = s.byte a := rfl
@[simp] theorem setReg_byte (a : Nat) : (s.setReg r v).byte a = s.byte a := by simp [State.byte]
@[simp] theorem reassertZero_byte (a : Nat) : s.reassertZero.byte a = s.byte a := rfl
@[simp] theorem takeError_byte (a : Nat) : (s.takeError e).byte a = s.byte a := rfl
@[simp] theorem doReset_byte (a : Nat) : s.doReset.byte a = s.byte a := rfl

/-- Two registers with one number are one register. -/
theorem toNat_ne_of_ne {r q : RegIdx} (h : q ≠ r) : r.toNat ≠ q.toNat :=
  fun h' => h (BitVec.eq_of_toNat_eq h'.symm)

/-- A register after a write: register 0 still reads 0, the others are the written value or as before. -/
theorem setReg_reg : (s.setReg r v).reg q = if q = r ∧ r ≠ 0#5 then v else s.reg q := by
  by_cases hr : r = 0#5
  · subst hr; simp
  by_cases hq : q = r
  · subst hq; simp [State.reg, State.setReg, hr]
  · simp only [State.reg, State.setReg, hr, if_false, hq, false_and]
    split
    · rfl
    · exact Vector.getElem_set_ne _ _ (toNat_ne_of_ne hq)

@[simp] theorem setReg_reg_self : (s.setReg r v).reg r = if r = 0#5 then 0#32 else v := by
  rw [setReg_reg]; by_cases h : r = 0#5 <;> simp [h, State.reg]

theorem setReg_reg_of_ne (h : q ≠ r) : (s.setReg r v).reg q = s.reg q := by
  simp [setReg_reg, h]

/-- Clearing slot 0 changes no register, since no read sees that slot. -/
@[simp] theorem reassertZero_reg : s.reassertZero.reg q = s.reg q := by
  unfold State.reg State.reassertZero
  split
  · rfl
  · rename_i h
    exact Vector.getElem_set_ne (by omega) q.isLt fun h' => h (BitVec.eq_of_toNat_eq h'.symm)

@[simp] theorem reassertZero_slot : s.reassertZero.x[0] = 0#32 := by simp [State.reassertZero]

@[simp] theorem setReg_slot : (s.setReg r v).x[0] = s.x[0] := by
  unfold State.setReg
  split
  · rfl
  · rename_i h
    exact Vector.getElem_set_ne r.isLt (by omega) fun h' => h (BitVec.eq_of_toNat_eq h')

/-- With slot 0 clear the re-assertion changes nothing. -/
theorem reassertZero_of_slot (h : s.x[0] = 0#32) : s.reassertZero = s := by
  have : s.x.set 0 0#32 = s.x := by
    refine Vector.ext fun i hi => ?_
    by_cases h0 : i = 0
    · subst h0; simp [h]
    · exact Vector.getElem_set_ne (by omega) hi (Ne.symm h0)
  unfold State.reassertZero; rw [this]

end Sys2Proof.Machine
end

