-- ==== Sys2Proof/Laws/Frame.lean ====
section
/-! SUPPORT. What each shared operation does, said once: the ways an instruction ends, the two memory primitives, and
the whole of `step`. The claims cite these and never unfold the operation. -/

namespace Sys2Proof.Machine

variable {s t : State} {rd : RegIdx} {v target addr : Word} {n : Nat} {e : Error}

/-! ### The frames -/

theorem SameBookkeeping.refl (s : State) : SameBookkeeping s s := ⟨rfl, rfl, rfl, rfl⟩

theorem sameBookkeeping_setReg_setPc : SameBookkeeping s ((s.setReg rd v).setPc target) := ⟨by simp, by simp, by simp, by simp⟩

theorem onlyRegister_setReg_setPc : OnlyRegister rd s ((s.setReg rd v).setPc target) :=
  ⟨fun _ h => by simp [setReg_reg_of_ne _ _ _ _ h], fun _ => by simp, sameBookkeeping_setReg_setPc⟩

theorem onlyPc_setPc : OnlyPc s (s.setPc target) := ⟨fun _ => by simp, fun _ => by simp, ⟨rfl, rfl, rfl, rfl⟩⟩

theorem wroteRegister_setReg_setPc : WroteRegister rd v s ((s.setReg rd v).setPc s.npc) :=
  ⟨by simp, by simp, onlyRegister_setReg_setPc⟩

theorem jumped_setReg_setPc : Jumped rd target s ((s.setReg rd s.npc).setPc target) :=
  ⟨by simp, rfl, onlyRegister_setReg_setPc⟩

/-! ### The ways an instruction ends -/

theorem writeBack_completes : ∃ t, writeBack rd v s = .next t ∧ WroteRegister rd v s t :=
  ⟨_, rfl, wroteRegister_setReg_setPc⟩

theorem linkAndJump_completes : ∃ t, linkAndJump rd target s = .next t ∧ Jumped rd target s t :=
  ⟨_, rfl, jumped_setReg_setPc⟩

theorem advance_completes : ∃ t, advance s = .next t ∧ t.pc = s.pc + 4#32 ∧ OnlyPc s t :=
  ⟨_, rfl, rfl, onlyPc_setPc⟩

theorem branchIf_completes {taken : Bool} :
    ∃ t, branchIf taken target s = .next t ∧ t.pc = (if taken then target else s.pc + 4#32) ∧ OnlyPc s t :=
  ⟨_, rfl, rfl, onlyPc_setPc⟩

/-! ### The memory primitives -/

theorem memRead_inRange {kind : AccessKind} (h : addr.toNat + n ≤ s.cfg.memSize) :
    s.memRead kind addr n = .ok (s.mem.readLE addr.toNat n) := if_pos h

theorem memRead_outOfRange {kind : AccessKind} (h : s.cfg.memSize < addr.toNat + n) :
    s.memRead kind addr n = .error (.addressOutOfRange kind addr n s.pc) := if_neg (Nat.not_le.2 h)

theorem memWrite_inRange (h : addr.toNat + n ≤ s.cfg.memSize) :
    s.memWrite addr n v = .ok { s with mem := s.mem.writeLE addr.toNat n v } := if_pos h

theorem memWrite_outOfRange (h : s.cfg.memSize < addr.toNat + n) :
    s.memWrite addr n v = .error (.addressOutOfRange .store addr n s.pc) := if_neg (Nat.not_le.2 h)

theorem loadTo_inRange {widen : BitVec (8 * n) → Word} (h : addr.toNat + n ≤ s.cfg.memSize) :
    loadTo rd addr n widen s = writeBack rd (widen (s.mem.readLE addr.toNat n)) s := by
  simp [loadTo, memRead_inRange h]

theorem loadTo_outOfRange {widen : BitVec (8 * n) → Word} (h : s.cfg.memSize < addr.toNat + n) :
    loadTo rd addr n widen s = .fault (.raised (.addressOutOfRange .load addr n s.pc)) := by
  simp [loadTo, memRead_outOfRange h, raise]

/-- The state a store leaves. -/
abbrev State.afterStore (s : State) (addr : Word) (n : Nat) (v : Word) : State :=
  State.setPc { s with mem := s.mem.writeLE addr.toNat n v } s.npc

theorem storeAt_inRange (h : addr.toNat + n ≤ s.cfg.memSize) :
    storeAt addr n v s = .next (s.afterStore addr n v) := by
  rw [storeAt, memWrite_inRange h]; rfl

theorem storeAt_outOfRange (h : s.cfg.memSize < addr.toNat + n) :
    storeAt addr n v s = .fault (.raised (.addressOutOfRange .store addr n s.pc)) := by
  simp [storeAt, memWrite_outOfRange h, raise]

theorem stored_afterStore (hm : s.mem.wf) : Stored addr.toNat n v s (s.afterStore addr n v) where
  bytes _ hk := Memory.byte_writeLE_inside hm hk
  pc := rfl
  frame := ⟨fun _ => rfl, fun _ hb => Memory.byte_writeLE_outside hb, ⟨rfl, rfl, rfl, rfl⟩⟩

/-! ### What an instruction can answer -/

/-- Everything `exec` can do, in one place: it goes on with at most one register written, or it branches, or it stores,
or its one data access is out of range and it raises. It never refuses. -/
inductive ExecShape (i : Instr) (s : State) : Result → Prop where
  | register (rd : RegIdx) (v target : Word) (hd : i.dest = some rd) (ha : i.accessInRange s)
      (hs : ∀ a n, i.access s ≠ some (.store, a, n)) (hp : i.nextPc s = target) :
      ExecShape i s (.next ((s.setReg rd v).setPc target))
  | pcOnly (target : Word) (hd : i.dest = none) (ha : i.access s = none) (hp : i.nextPc s = target) :
      ExecShape i s (.next (s.setPc target))
  | store (addr : Word) (n : Nat) (v : Word) (hd : i.dest = none) (ha : i.access s = some (.store, addr, n))
      (hr : addr.toNat + n ≤ s.cfg.memSize) (hp : i.nextPc s = s.npc) :
      ExecShape i s (.next (s.afterStore addr n v))
  | raised (kind : AccessKind) (addr : Word) (n : Nat) (ha : i.access s = some (kind, addr, n))
      (hr : s.cfg.memSize < addr.toNat + n) :
      ExecShape i s (.fault (.raised (.addressOutOfRange kind addr n s.pc)))

theorem writeBack_shape {i : Instr} (hd : i.dest = some rd) (ha : i.access s = none) (hp : i.nextPc s = s.npc) :
    ExecShape i s (writeBack rd v s) :=
  .register rd v _ hd (by simp [Instr.accessInRange, ha]) (by simp [ha]) hp

theorem linkAndJump_shape {i : Instr} (hd : i.dest = some rd) (ha : i.access s = none) (hp : i.nextPc s = target) :
    ExecShape i s (linkAndJump rd target s) :=
  .register rd _ _ hd (by simp [Instr.accessInRange, ha]) (by simp [ha]) hp

theorem branchIf_shape {i : Instr} {taken : Bool} (hd : i.dest = none) (ha : i.access s = none)
    (hp : i.nextPc s = if taken then target else s.npc) : ExecShape i s (branchIf taken target s) :=
  .pcOnly _ hd ha hp

theorem loadTo_shape {i : Instr} {widen : BitVec (8 * n) → Word} (hd : i.dest = some rd)
    (ha : i.access s = some (.load, addr, n)) (hp : i.nextPc s = s.npc) :
    ExecShape i s (loadTo rd addr n widen s) := by
  by_cases h : addr.toNat + n ≤ s.cfg.memSize
  · rw [loadTo_inRange h]
    exact .register rd _ _ hd (by simpa [Instr.accessInRange, ha] using h) (by simp [ha]) hp
  · rw [loadTo_outOfRange (Nat.not_le.1 h)]
    exact .raised _ _ _ ha (Nat.not_le.1 h)

theorem storeAt_shape {i : Instr} (hd : i.dest = none) (ha : i.access s = some (.store, addr, n))
    (hp : i.nextPc s = s.npc) : ExecShape i s (storeAt addr n v s) := by
  by_cases h : addr.toNat + n ≤ s.cfg.memSize
  · rw [storeAt_inRange h]; exact .store _ _ _ hd ha h hp
  · rw [storeAt_outOfRange (Nat.not_le.1 h)]; exact .raised _ _ _ ha (Nat.not_le.1 h)

/-- The inversion lemma of `exec`. -/
theorem exec_shape (i : Instr) (s : State) : ExecShape i s (exec i s) := by
  cases i with
  | lui | auipc | addi | slti | sltiu | xori | ori | andi | slli | srli | srai
  | add | sub | sll | slt | sltu | xor | srl | sra | or | and => exact writeBack_shape rfl rfl rfl
  | jal | jalr => exact linkAndJump_shape rfl rfl rfl
  | beq => exact branchIf_shape rfl rfl (by simp [Instr.nextPc, condEq, pcRelative, immB, sext])
  | bne => exact branchIf_shape rfl rfl (by simp [Instr.nextPc, condEq, pcRelative, immB, sext])
  | blt => exact branchIf_shape rfl rfl (by simp [Instr.nextPc, condLt, pcRelative, immB, sext])
  | bge => exact branchIf_shape rfl rfl (by simp [Instr.nextPc, condLt, pcRelative, immB, sext])
  | bltu => exact branchIf_shape rfl rfl (by simp [Instr.nextPc, condLtu, pcRelative, immB, sext])
  | bgeu => exact branchIf_shape rfl rfl (by simp [Instr.nextPc, condLtu, pcRelative, immB, sext])
  | lb | lh | lw | lbu | lhu => exact loadTo_shape rfl rfl rfl
  | sb | sh | sw => exact storeAt_shape rfl rfl rfl
  | fence | ecall | ebreak => exact .pcOnly _ rfl rfl rfl

/-! ### Everything a step can do -/

/-- A step that goes on fetched a word, decoded it and ran it on a running core, and then x0 was re-asserted. -/
theorem step_next_cases (h : step s = .next t) :
    s.status = .running ∧ ∃ w i u, s.fetch = .ok w ∧ decode w = .ok i ∧ exec i s = .next u ∧ t = u.reassertZero := by
  unfold step admittedStep at h
  cases hs : s.status with
  | notReset => simp [hs] at h
  | halted e => simp [hs] at h
  | running =>
    simp only [hs, runCycle] at h
    cases hf : s.fetch with
    | error e => simp [hf, raise] at h
    | ok w =>
      cases hd : decode w with
      | error r => simp [hf, hd, raise] at h
      | ok i =>
        simp only [hf, hd] at h
        cases he : exec i s with
        | next u => simp only [he, onNext, Host.Outcome.next.injEq] at h; exact ⟨rfl, w, i, u, rfl, hd, he, h.symm⟩
        | fault r => simp [he, onNext] at h
        | refused r => simp [he, onNext] at h

theorem fetch_inRange (h : s.pc.toNat + 4 ≤ s.cfg.memSize) :
    s.fetch = .ok (wordOfBytes (s.byte s.pc.toNat) (s.byte (s.pc.toNat + 1)) (s.byte (s.pc.toNat + 2))
      (s.byte (s.pc.toNat + 3))) := by
  rw [State.fetch, memRead_inRange h, Memory.readLE_four]; rfl

theorem fetch_outOfRange (h : s.cfg.memSize < s.pc.toNat + 4) :
    s.fetch = .error (.addressOutOfRange .fetch s.pc 4 s.pc) := memRead_outOfRange h

end Sys2Proof.Machine
end

