-- ==== Sys2Proof/Laws/PerInstr.lean ====
section
/-! SUPPORT. Facts about every instruction as syntax, one lemma per constructor. -/

namespace Sys2Proof.Laws.TableRow

/-- The encoder agrees with spec/opcode_table.json: the instruction's word, masked, is its row's match. -/
def Statement (i : Instr) : Prop := encode i &&& (tableRow i).1 = (tableRow i).2

theorem encR_masked (f7 : BitVec 7) (rs2 rs1 : RegIdx) (f3 : BitVec 3) (rd : RegIdx) (op : BitVec 7) :
    encR f7 rs2 rs1 f3 rd op &&& 0xFE00707F#32 = encR f7 0#5 0#5 f3 0#5 op := by
  refine BitVec.eq_of_getLsbD_eq fun i hi => ?_
  simp only [BitVec.getLsbD_and, getLsbD_encR]
  interval_cases i <;> simp

theorem encI_masked (imm : BitVec 12) (rs1 : RegIdx) (f3 : BitVec 3) (rd : RegIdx) (op : BitVec 7) :
    encI imm rs1 f3 rd op &&& 0x0000707F#32 = encI 0#12 0#5 f3 0#5 op := by
  refine BitVec.eq_of_getLsbD_eq fun i hi => ?_
  simp only [BitVec.getLsbD_and, getLsbD_encI]
  interval_cases i <;> simp

theorem encS_masked (imm : BitVec 12) (rs2 rs1 : RegIdx) (f3 : BitVec 3) (op : BitVec 7) :
    encS imm rs2 rs1 f3 op &&& 0x0000707F#32 = encI 0#12 0#5 f3 0#5 op := by
  refine BitVec.eq_of_getLsbD_eq fun i hi => ?_
  simp only [BitVec.getLsbD_and, getLsbD_encS, getLsbD_encI]
  interval_cases i <;> simp

theorem encB_masked (off : BitVec 13) (rs2 rs1 : RegIdx) (f3 : BitVec 3) (op : BitVec 7) :
    encB off rs2 rs1 f3 op &&& 0x0000707F#32 = encI 0#12 0#5 f3 0#5 op := by
  refine BitVec.eq_of_getLsbD_eq fun i hi => ?_
  simp only [BitVec.getLsbD_and, getLsbD_encB, getLsbD_encI]
  interval_cases i <;> simp

theorem encU_masked (imm20 : BitVec 20) (rd : RegIdx) (op : BitVec 7) :
    encU imm20 rd op &&& 0x0000007F#32 = encU 0#20 0#5 op := by
  refine BitVec.eq_of_getLsbD_eq fun i hi => ?_
  simp only [BitVec.getLsbD_and, getLsbD_encU]
  interval_cases i <;> simp

theorem encJ_masked (off : BitVec 21) (rd : RegIdx) (op : BitVec 7) :
    encJ off rd op &&& 0x0000007F#32 = encU 0#20 0#5 op := by
  refine BitVec.eq_of_getLsbD_eq fun i hi => ?_
  simp only [BitVec.getLsbD_and, getLsbD_encJ, getLsbD_encU]
  interval_cases i <;> simp

theorem encI_masked12 (imm : BitVec 12) (rs1 : RegIdx) (f3 : BitVec 3) (rd : RegIdx) (op : BitVec 7) :
    encI imm rs1 f3 rd op &&& 0xFFF0707F#32 = encI imm 0#5 f3 0#5 op := by
  refine BitVec.eq_of_getLsbD_eq fun i hi => ?_
  simp only [BitVec.getLsbD_and, getLsbD_encI]
  interval_cases i <;> simp

theorem lui (rd : RegIdx) (imm20 : BitVec 20) : Statement (.lui rd imm20) := by
  exact (encU_masked ..).trans rfl

theorem auipc (rd : RegIdx) (imm20 : BitVec 20) : Statement (.auipc rd imm20) := by
  exact (encU_masked ..).trans rfl

theorem jal (rd : RegIdx) (off : BitVec 21) : Statement (.jal rd off) := by
  exact (encJ_masked ..).trans rfl

theorem jalr (rd rs1 : RegIdx) (imm : BitVec 12) : Statement (.jalr rd rs1 imm) := by
  exact (encI_masked ..).trans rfl

theorem beq (rs1 rs2 : RegIdx) (off : BitVec 13) : Statement (.beq rs1 rs2 off) := by
  exact (encB_masked ..).trans rfl

theorem bne (rs1 rs2 : RegIdx) (off : BitVec 13) : Statement (.bne rs1 rs2 off) := by
  exact (encB_masked ..).trans rfl

theorem blt (rs1 rs2 : RegIdx) (off : BitVec 13) : Statement (.blt rs1 rs2 off) := by
  exact (encB_masked ..).trans rfl

theorem bge (rs1 rs2 : RegIdx) (off : BitVec 13) : Statement (.bge rs1 rs2 off) := by
  exact (encB_masked ..).trans rfl

theorem bltu (rs1 rs2 : RegIdx) (off : BitVec 13) : Statement (.bltu rs1 rs2 off) := by
  exact (encB_masked ..).trans rfl

theorem bgeu (rs1 rs2 : RegIdx) (off : BitVec 13) : Statement (.bgeu rs1 rs2 off) := by
  exact (encB_masked ..).trans rfl

theorem lb (rd rs1 : RegIdx) (imm : BitVec 12) : Statement (.lb rd rs1 imm) := by
  exact (encI_masked ..).trans rfl

theorem lh (rd rs1 : RegIdx) (imm : BitVec 12) : Statement (.lh rd rs1 imm) := by
  exact (encI_masked ..).trans rfl

theorem lw (rd rs1 : RegIdx) (imm : BitVec 12) : Statement (.lw rd rs1 imm) := by
  exact (encI_masked ..).trans rfl

theorem lbu (rd rs1 : RegIdx) (imm : BitVec 12) : Statement (.lbu rd rs1 imm) := by
  exact (encI_masked ..).trans rfl

theorem lhu (rd rs1 : RegIdx) (imm : BitVec 12) : Statement (.lhu rd rs1 imm) := by
  exact (encI_masked ..).trans rfl

theorem sb (rs1 rs2 : RegIdx) (imm : BitVec 12) : Statement (.sb rs1 rs2 imm) := by
  exact (encS_masked ..).trans rfl

theorem sh (rs1 rs2 : RegIdx) (imm : BitVec 12) : Statement (.sh rs1 rs2 imm) := by
  exact (encS_masked ..).trans rfl

theorem sw (rs1 rs2 : RegIdx) (imm : BitVec 12) : Statement (.sw rs1 rs2 imm) := by
  exact (encS_masked ..).trans rfl

theorem addi (rd rs1 : RegIdx) (imm : BitVec 12) : Statement (.addi rd rs1 imm) := by
  exact (encI_masked ..).trans rfl

theorem slti (rd rs1 : RegIdx) (imm : BitVec 12) : Statement (.slti rd rs1 imm) := by
  exact (encI_masked ..).trans rfl

theorem sltiu (rd rs1 : RegIdx) (imm : BitVec 12) : Statement (.sltiu rd rs1 imm) := by
  exact (encI_masked ..).trans rfl

theorem xori (rd rs1 : RegIdx) (imm : BitVec 12) : Statement (.xori rd rs1 imm) := by
  exact (encI_masked ..).trans rfl

theorem ori (rd rs1 : RegIdx) (imm : BitVec 12) : Statement (.ori rd rs1 imm) := by
  exact (encI_masked ..).trans rfl

theorem andi (rd rs1 : RegIdx) (imm : BitVec 12) : Statement (.andi rd rs1 imm) := by
  exact (encI_masked ..).trans rfl

theorem slli (rd rs1 : RegIdx) (shamt : BitVec 5) : Statement (.slli rd rs1 shamt) := by
  exact (encR_masked ..).trans rfl

theorem srli (rd rs1 : RegIdx) (shamt : BitVec 5) : Statement (.srli rd rs1 shamt) := by
  exact (encR_masked ..).trans rfl

theorem srai (rd rs1 : RegIdx) (shamt : BitVec 5) : Statement (.srai rd rs1 shamt) := by
  exact (encR_masked ..).trans rfl

theorem add (rd rs1 rs2 : RegIdx) : Statement (.add rd rs1 rs2) := by
  exact (encR_masked ..).trans rfl

theorem sub (rd rs1 rs2 : RegIdx) : Statement (.sub rd rs1 rs2) := by
  exact (encR_masked ..).trans rfl

theorem sll (rd rs1 rs2 : RegIdx) : Statement (.sll rd rs1 rs2) := by
  exact (encR_masked ..).trans rfl

theorem slt (rd rs1 rs2 : RegIdx) : Statement (.slt rd rs1 rs2) := by
  exact (encR_masked ..).trans rfl

theorem sltu (rd rs1 rs2 : RegIdx) : Statement (.sltu rd rs1 rs2) := by
  exact (encR_masked ..).trans rfl

theorem xor (rd rs1 rs2 : RegIdx) : Statement (.xor rd rs1 rs2) := by
  exact (encR_masked ..).trans rfl

theorem srl (rd rs1 rs2 : RegIdx) : Statement (.srl rd rs1 rs2) := by
  exact (encR_masked ..).trans rfl

theorem sra (rd rs1 rs2 : RegIdx) : Statement (.sra rd rs1 rs2) := by
  exact (encR_masked ..).trans rfl

theorem or (rd rs1 rs2 : RegIdx) : Statement (.or rd rs1 rs2) := by
  exact (encR_masked ..).trans rfl

theorem and (rd rs1 rs2 : RegIdx) : Statement (.and rd rs1 rs2) := by
  exact (encR_masked ..).trans rfl

theorem fence (rd rs1 : RegIdx) (imm : BitVec 12) : Statement (.fence rd rs1 imm) := by
  exact (encI_masked ..).trans rfl

theorem ecall (rd rs1 : RegIdx) : Statement (.ecall rd rs1) := by
  exact (encI_masked12 ..).trans rfl

theorem ebreak (rd rs1 : RegIdx) : Statement (.ebreak rd rs1) := by
  exact (encI_masked12 ..).trans rfl

end Sys2Proof.Laws.TableRow
end

