-- ==== Sys2Proof/Tests/Slice0.lean ====
section
/-! SUPPORT. The model's own tests. Every expected value is the spec's: the encodings of 30_encoding.md and the vectors of
95_test_vectors.md. At the end, for each statement with hypotheses, a concrete state that meets them. -/

namespace Sys2Proof.Tests

open Sys2Proof.Machine

/-! ### Terms without an encoding are refused (30_encoding.md R86, R88) -/

theorem test_wf_jal_odd_offset : (Instr.jal 1#5 0x101#21).wf = false ∧ (Instr.jal 1#5 0x100#21).wf = true := by decide
theorem test_wf_beq_odd_offset : (Instr.beq 1#5 2#5 9#13).wf = false ∧ (Instr.beq 1#5 2#5 8#13).wf = true := by decide
theorem test_wf_bne_odd_offset : (Instr.bne 1#5 2#5 9#13).wf = false ∧ (Instr.bne 1#5 2#5 8#13).wf = true := by decide
theorem test_wf_blt_odd_offset : (Instr.blt 1#5 2#5 9#13).wf = false ∧ (Instr.blt 1#5 2#5 8#13).wf = true := by decide
theorem test_wf_bge_odd_offset : (Instr.bge 1#5 2#5 9#13).wf = false ∧ (Instr.bge 1#5 2#5 8#13).wf = true := by decide
theorem test_wf_bltu_odd_offset : (Instr.bltu 1#5 2#5 9#13).wf = false ∧ (Instr.bltu 1#5 2#5 8#13).wf = true := by decide
theorem test_wf_bgeu_odd_offset : (Instr.bgeu 1#5 2#5 9#13).wf = false ∧ (Instr.bgeu 1#5 2#5 8#13).wf = true := by decide

/-! ### One word of every instruction, its bits written field by field from the layouts of 30_encoding.md R82 -/

/-- 41_upper_immediate.md; words U1, U6. -/
theorem test_decode_upper_immediate :
    decode 0b00010010001101000101_00101_0110111#32 = .ok (.lui 5#5 0x12345#20) ∧
    decode 0b00000000000000000001_00110_0010111#32 = .ok (.auipc 6#5 1#20) := by decide

/-- 42_jumps.md; words J1, J3, J9. -/
theorem test_decode_jumps :
    decode 0b00010000000000000000_00001_1101111#32 = .ok (.jal 1#5 0x100#21) ∧
    decode 0b11111111100111111111_00001_1101111#32 = .ok (.jal 1#5 (-8#21)) ∧
    decode 0b000000000100_00001_000_00001_1100111#32 = .ok (.jalr 1#5 1#5 4#12) := by decide

/-- 43_branches.md; words B1 to B15 and P1. -/
theorem test_decode_branches :
    decode 0b0000000_00010_00001_000_01000_1100011#32 = .ok (.beq 1#5 2#5 8#13) ∧
    decode 0b0000000_00010_00001_001_01000_1100011#32 = .ok (.bne 1#5 2#5 8#13) ∧
    decode 0b1111111_00000_00101_001_11001_1100011#32 = .ok (.bne 5#5 0#5 (-8#13)) ∧
    decode 0b0000000_00010_00001_100_01000_1100011#32 = .ok (.blt 1#5 2#5 8#13) ∧
    decode 0b0000000_00010_00001_101_01000_1100011#32 = .ok (.bge 1#5 2#5 8#13) ∧
    decode 0b0000000_00010_00001_110_01000_1100011#32 = .ok (.bltu 1#5 2#5 8#13) ∧
    decode 0b0000000_00010_00001_111_01000_1100011#32 = .ok (.bgeu 1#5 2#5 8#13) := by decide

/-- 44_loads.md; words L3, L6, L10, L2, L5. -/
theorem test_decode_loads :
    decode 0b000000000011_00010_000_00101_0000011#32 = .ok (.lb 5#5 2#5 3#12) ∧
    decode 0b000000000001_00010_001_00101_0000011#32 = .ok (.lh 5#5 2#5 1#12) ∧
    decode 0b111111111100_00010_010_00101_0000011#32 = .ok (.lw 5#5 2#5 (-4#12)) ∧
    decode 0b000000000000_00010_100_00101_0000011#32 = .ok (.lbu 5#5 2#5 0#12) ∧
    decode 0b000000000000_00010_101_00101_0000011#32 = .ok (.lhu 5#5 2#5 0#12) := by decide

/-- 45_stores.md; words S3, S2, S5. -/
theorem test_decode_stores :
    decode 0b0000000_00101_00010_000_00000_0100011#32 = .ok (.sb 2#5 5#5 0#12) ∧
    decode 0b0000000_00101_00010_001_00000_0100011#32 = .ok (.sh 2#5 5#5 0#12) ∧
    decode 0b1111111_00101_00010_010_11100_0100011#32 = .ok (.sw 2#5 5#5 (-4#12)) := by decide

/-- 46_alu_immediate.md; words I4, I8, I11, I16, I17, I19, I20, I23, I25. -/
theorem test_decode_alu_immediate :
    decode 0b100000000000_00110_000_00101_0010011#32 = .ok (.addi 5#5 6#5 0x800#12) ∧
    decode 0b111111111111_00110_010_00101_0010011#32 = .ok (.slti 5#5 6#5 0xFFF#12) ∧
    decode 0b111111111111_00110_011_00101_0010011#32 = .ok (.sltiu 5#5 6#5 0xFFF#12) ∧
    decode 0b011111111111_00110_100_00101_0010011#32 = .ok (.xori 5#5 6#5 0x7FF#12) ∧
    decode 0b100000000000_00110_110_00101_0010011#32 = .ok (.ori 5#5 6#5 0x800#12) ∧
    decode 0b111111110000_00110_111_00101_0010011#32 = .ok (.andi 5#5 6#5 0xFF0#12) ∧
    decode 0b0000000_11111_00110_001_00101_0010011#32 = .ok (.slli 5#5 6#5 31#5) ∧
    decode 0b0000000_00100_00110_101_00101_0010011#32 = .ok (.srli 5#5 6#5 4#5) ∧
    decode 0b0100000_00100_00110_101_00101_0010011#32 = .ok (.srai 5#5 6#5 4#5) := by decide

/-- 47_alu_register.md; words R1 to R24. -/
theorem test_decode_alu_register :
    decode 0b0000000_00111_00110_000_00101_0110011#32 = .ok (.add 5#5 6#5 7#5) ∧
    decode 0b0100000_00111_00110_000_00101_0110011#32 = .ok (.sub 5#5 6#5 7#5) ∧
    decode 0b0000000_00111_00110_001_00101_0110011#32 = .ok (.sll 5#5 6#5 7#5) ∧
    decode 0b0000000_00111_00110_010_00101_0110011#32 = .ok (.slt 5#5 6#5 7#5) ∧
    decode 0b0000000_00111_00110_011_00101_0110011#32 = .ok (.sltu 5#5 6#5 7#5) ∧
    decode 0b0000000_00111_00110_100_00101_0110011#32 = .ok (.xor 5#5 6#5 7#5) ∧
    decode 0b0000000_00111_00110_101_00101_0110011#32 = .ok (.srl 5#5 6#5 7#5) ∧
    decode 0b0100000_00111_00110_101_00101_0110011#32 = .ok (.sra 5#5 6#5 7#5) ∧
    decode 0b0000000_00111_00110_110_00101_0110011#32 = .ok (.or 5#5 6#5 7#5) ∧
    decode 0b0000000_00111_00110_111_00101_0110011#32 = .ok (.and 5#5 6#5 7#5) := by decide

/-- 48_system.md; words Y3, Y5, Y6. -/
theorem test_decode_system :
    decode 0b000011111111_00110_000_00101_0001111#32 = .ok (.fence 5#5 6#5 0x0FF#12) ∧
    decode 0b000000000000_00010_000_00001_1110011#32 = .ok (.ecall 1#5 2#5) ∧
    decode 0b000000000001_00000_000_00000_1110011#32 = .ok (.ebreak 0#5 0#5) := by decide

/-- Words that are no instruction, one of each level (R100; 95_test_vectors.md D2, S12, I27, Y12). -/
theorem test_decode_errors :
    decode 0xFFFFFFFF#32 = .error (.opcode 0x7F#7) ∧ decode 0x00513023#32 = .error (.funct3 3#3) ∧
    decode 0x02131293#32 = .error (.funct7 1#7) ∧ decode 0x10500073#32 = .error (.funct12 0x105#12) := by decide

/-- The extended immediates at the ends of their ranges (95_test_vectors.md S6). -/
theorem test_immediates :
    immI (immIOf 0x80000013#32) = 0xFFFFF800#32 ∧ immI (immIOf 0x7FF00013#32) = 0x000007FF#32 ∧
    immS (immSOf 0x80002023#32) = 0xFFFFF800#32 ∧ immS (immSOf 0x7E002FA3#32) = 0x000007FF#32 ∧
    immB (offBOf 0x80000063#32) = 0xFFFFF000#32 ∧ immB (offBOf 0x7E000FE3#32) = 0x00000FFE#32 ∧
    immJ (offJOf 0x8000006F#32) = 0xFFF00000#32 ∧ immJ (offJOf 0x7FFFF06F#32) = 0x000FFFFE#32 ∧
    immU (imm20Of 0xFFFFF037#32) = 0xFFFFF000#32 := by decide

/-- The bytes of a word, lowest address first, and a decode from the front of a byte string (R53, 95_test_vectors.md S9). -/
theorem test_decode_bytes :
    decodeBytes [0x13#8, 0x01#8, 0x00#8, 0xFB#8, 0x6F#8] = some (.ok (.addi 2#5 0#5 0xFB0#12), [0x6F#8]) ∧
    decodeBytes [0x13#8, 0x01#8, 0x00#8] = none := by decide

theorem test_decode_table_word : decodeTableWord 32 0x40000033 = some (.sub 0#5 0#5 0#5) ∧ decodeTableWord 32 0 = none := by
  decide

/-! ### Small states and what a step makes of them -/

/-- The state a step gives, if it gives one. -/
def nextOf (s : State) : Option State :=
  match step s with
  | .next t => some t
  | _ => none

/-- The error a step raises, if it raises one. -/
def errorOf (s : State) : Option Error :=
  match step s with
  | .fault (.raised e) => some e
  | _ => none

theorem step_of_nextOf {s t : State} (h : nextOf s = some t) : step s = .next t := by
  unfold nextOf at h; split at h
  · rename_i h'; rw [h', Option.some.inj h]
  · exact absurd h (by simp)

theorem step_of_errorOf {s : State} {e : Error} (h : errorOf s = some e) : step s = .fault (.raised e) := by
  unfold errorOf at h; split at h
  · rename_i h'; rw [h', Option.some.inj h]
  · exact absurd h (by simp)

/-- A register and the pc after a step. -/
def regAfter (s : State) (r : RegIdx) : Option (Word × Word) := (nextOf s).map fun t => (t.reg r, t.pc)

/-- `n` bytes from `a` up and the pc after a step. -/
def bytesAfter (s : State) (a n : Nat) : Option (List Byte × Word) := (nextOf s).map fun t => (t.mem.copyOut a n, t.pc)

/-- The pc after a step that changed no register and no byte. -/
def pcAfter (s : State) : Option Word :=
  (nextOf s).bind fun t => if t.x = s.x ∧ t.mem = s.mem then some t.pc else none

/-- The start state of a vector of 95_test_vectors.md section 2: `MEM_SIZE` 0x10000, running, every register zero but the
listed ones, memory zero but the listed bytes and the word at the pc. -/
def vec (pc w : Word) (regs : List (RegIdx × Word)) (bytes : List (Nat × List Byte)) : State :=
  let s : State := { State.reset with
    x := Vector.replicate 32 0#32, pc := pc, mem := bytes.foldl (fun m p => m.copyIn p.1 p.2) [] }
  (regs.foldl (fun s p => s.setReg p.1 p.2) s).placeAtPc w

/-! ### One step each (95_test_vectors.md section 2; the number is the vector's) -/

/-- U2: `lui x5, 0x80000`. -/
theorem test_U2 : regAfter (vec 0x100#32 0x800002B7#32 [] []) 5#5 =
    some (0x80000000#32, 0x00000104#32) := by decide

/-- U6: `auipc x6, 0x1`. -/
theorem test_U6 : regAfter (vec 0x1000#32 0x00001317#32 [] []) 6#5 =
    some (0x00002000#32, 0x00001004#32) := by decide

/-- U7: `auipc x6, 0xFFFFF`. -/
theorem test_U7 : regAfter (vec 0x10#32 0xFFFFF317#32 [] []) 6#5 =
    some (0xFFFFF010#32, 0x00000014#32) := by decide

/-- J4: `jal x1, -0x44`. -/
theorem test_J4 : regAfter (vec 0x40#32 0xFBDFF0EF#32 [] []) 1#5 =
    some (0x00000044#32, 0xFFFFFFFC#32) := by decide

/-- J5: `jal x1, 6`. -/
theorem test_J5 : regAfter (vec 0x40#32 0x006000EF#32 [] []) 1#5 =
    some (0x00000044#32, 0x00000046#32) := by decide

/-- J8: `jalr x1, 0(x5)`. -/
theorem test_J8 : regAfter (vec 0x100#32 0x000280E7#32 [(5#5, 0x00000203#32)] []) 1#5 =
    some (0x00000104#32, 0x00000202#32) := by decide

/-- J9: `jalr x1, 4(x1)`. -/
theorem test_J9 : regAfter (vec 0x20#32 0x004080E7#32 [(1#5, 0x00000100#32)] []) 1#5 =
    some (0x00000024#32, 0x00000104#32) := by decide

/-- B1: `beq x1, x2, 8`. -/
theorem test_B1 : pcAfter (vec 0x100#32 0x00208463#32 [(1#5, 0x00000005#32), (2#5, 0x00000005#32)] []) = some 0x00000108#32 := by decide

/-- B2: `beq x1, x2, 8`. -/
theorem test_B2 : pcAfter (vec 0x100#32 0x00208463#32 [(1#5, 0x00000005#32), (2#5, 0x00000006#32)] []) = some 0x00000104#32 := by decide

/-- B3: `bne x1, x2, 8`. -/
theorem test_B3 : pcAfter (vec 0x100#32 0x00209463#32 [(1#5, 0x00000005#32), (2#5, 0x00000006#32)] []) = some 0x00000108#32 := by decide

/-- B4: `bne x1, x2, 8`. -/
theorem test_B4 : pcAfter (vec 0x100#32 0x00209463#32 [(1#5, 0x00000005#32), (2#5, 0x00000005#32)] []) = some 0x00000104#32 := by decide

/-- B5: `blt x1, x2, 8`. -/
theorem test_B5 : pcAfter (vec 0x100#32 0x0020C463#32 [(1#5, 0xFFFFFFFF#32), (2#5, 0x00000001#32)] []) = some 0x00000108#32 := by decide

/-- B7: `blt x1, x2, 8`. -/
theorem test_B7 : pcAfter (vec 0x100#32 0x0020C463#32 [(1#5, 0x00000007#32), (2#5, 0x00000007#32)] []) = some 0x00000104#32 := by decide

/-- B8: `bge x1, x2, 8`. -/
theorem test_B8 : pcAfter (vec 0x100#32 0x0020D463#32 [(1#5, 0x00000007#32), (2#5, 0x00000007#32)] []) = some 0x00000108#32 := by decide

/-- B10: `bge x1, x2, 8`. -/
theorem test_B10 : pcAfter (vec 0x100#32 0x0020D463#32 [(1#5, 0x7FFFFFFF#32), (2#5, 0x80000000#32)] []) = some 0x00000108#32 := by decide

/-- B11: `bltu x1, x2, 8`. -/
theorem test_B11 : pcAfter (vec 0x100#32 0x0020E463#32 [(1#5, 0x00000001#32), (2#5, 0xFFFFFFFF#32)] []) = some 0x00000108#32 := by decide

/-- B12: `bltu x1, x2, 8`. -/
theorem test_B12 : pcAfter (vec 0x100#32 0x0020E463#32 [(1#5, 0xFFFFFFFF#32), (2#5, 0x00000001#32)] []) = some 0x00000104#32 := by decide

/-- B13: `bgeu x1, x2, 8`. -/
theorem test_B13 : pcAfter (vec 0x100#32 0x0020F463#32 [(1#5, 0xFFFFFFFF#32), (2#5, 0x00000001#32)] []) = some 0x00000108#32 := by decide

/-- B15: `bgeu x1, x2, 8`. -/
theorem test_B15 : pcAfter (vec 0x100#32 0x0020F463#32 [(1#5, 0x00000000#32), (2#5, 0x00000001#32)] []) = some 0x00000104#32 := by decide

/-- L1: `lb x5, 0(x2)`. -/
theorem test_L1 : regAfter (vec 0x0#32 0x00010283#32 [(2#5, 0x00000100#32)] [(0x100, [0x80#8, 0xFF#8, 0x34#8, 0x12#8, 0x78#8, 0x56#8, 0x34#8, 0x12#8])]) 5#5 =
    some (0xFFFFFF80#32, 0x00000004#32) := by decide

/-- L12: `lb x5, 1(x2)`. -/
theorem test_L12 : regAfter (vec 0x0#32 0x00110283#32 [(2#5, 0xFFFFFFFF#32)] []) 5#5 =
    some (0xFFFFFF83#32, 0x00000004#32) := by decide

/-- L4: `lh x5, 0(x2)`. -/
theorem test_L4 : regAfter (vec 0x0#32 0x00011283#32 [(2#5, 0x00000100#32)] [(0x100, [0x80#8, 0xFF#8, 0x34#8, 0x12#8, 0x78#8, 0x56#8, 0x34#8, 0x12#8])]) 5#5 =
    some (0xFFFFFF80#32, 0x00000004#32) := by decide

/-- L6: `lh x5, 1(x2)`. -/
theorem test_L6 : regAfter (vec 0x0#32 0x00111283#32 [(2#5, 0x00000100#32)] [(0x100, [0x80#8, 0xFF#8, 0x34#8, 0x12#8, 0x78#8, 0x56#8, 0x34#8, 0x12#8])]) 5#5 =
    some (0x000034FF#32, 0x00000004#32) := by decide

/-- L9: `lw x5, 2(x2)`. -/
theorem test_L9 : regAfter (vec 0x0#32 0x00212283#32 [(2#5, 0x00000100#32)] [(0x100, [0x80#8, 0xFF#8, 0x34#8, 0x12#8, 0x78#8, 0x56#8, 0x34#8, 0x12#8])]) 5#5 =
    some (0x56781234#32, 0x00000004#32) := by decide

/-- L15: `lw x5, -4(x2)`. -/
theorem test_L15 : regAfter (vec 0x0#32 0xFFC12283#32 [(2#5, 0x00010000#32)] [(0xFFFC, [0x01#8, 0x02#8, 0x03#8, 0x84#8])]) 5#5 =
    some (0x84030201#32, 0x00000004#32) := by decide

/-- L2: `lbu x5, 0(x2)`. -/
theorem test_L2 : regAfter (vec 0x0#32 0x00014283#32 [(2#5, 0x00000100#32)] [(0x100, [0x80#8, 0xFF#8, 0x34#8, 0x12#8, 0x78#8, 0x56#8, 0x34#8, 0x12#8])]) 5#5 =
    some (0x00000080#32, 0x00000004#32) := by decide

/-- L5: `lhu x5, 0(x2)`. -/
theorem test_L5 : regAfter (vec 0x0#32 0x00015283#32 [(2#5, 0x00000100#32)] [(0x100, [0x80#8, 0xFF#8, 0x34#8, 0x12#8, 0x78#8, 0x56#8, 0x34#8, 0x12#8])]) 5#5 =
    some (0x0000FF80#32, 0x00000004#32) := by decide

/-- S3: `sb x5, 0(x2)`. -/
theorem test_S3 : bytesAfter (vec 0x0#32 0x00510023#32 [(2#5, 0x00000200#32), (5#5, 0x12345678#32)] []) 0x200 1 =
    some ([0x78#8], 0x00000004#32) := by decide

/-- S2: `sh x5, 0(x2)`. -/
theorem test_S2 : bytesAfter (vec 0x0#32 0x00511023#32 [(2#5, 0x00000200#32), (5#5, 0x12345678#32)] []) 0x200 2 =
    some ([0x78#8, 0x56#8], 0x00000004#32) := by decide

/-- S4: `sw x5, 1(x2)`. -/
theorem test_S4 : bytesAfter (vec 0x0#32 0x005120A3#32 [(2#5, 0x00000200#32), (5#5, 0xAABBCCDD#32)] []) 0x201 4 =
    some ([0xDD#8, 0xCC#8, 0xBB#8, 0xAA#8], 0x00000004#32) := by decide

/-- S6: `sw x0, 0(x2)`. -/
theorem test_S6 : bytesAfter (vec 0x0#32 0x00012023#32 [(2#5, 0x00000200#32)] [(0x200, [0x11#8, 0x22#8, 0x33#8, 0x44#8])]) 0x200 4 =
    some ([0x00#8, 0x00#8, 0x00#8, 0x00#8], 0x00000004#32) := by decide

/-- I2: `addi x5, x6, 1`. -/
theorem test_I2 : regAfter (vec 0x100#32 0x00130293#32 [(6#5, 0x7FFFFFFF#32)] []) 5#5 =
    some (0x80000000#32, 0x00000104#32) := by decide

/-- I4: `addi x5, x6, -2048`. -/
theorem test_I4 : regAfter (vec 0x100#32 0x80030293#32 [(6#5, 0x00000000#32)] []) 5#5 =
    some (0xFFFFF800#32, 0x00000104#32) := by decide

/-- I8: `slti x5, x6, -1`. -/
theorem test_I8 : regAfter (vec 0x100#32 0xFFF32293#32 [(6#5, 0xFFFFFFFE#32)] []) 5#5 =
    some (0x00000001#32, 0x00000104#32) := by decide

/-- I10: `slti x5, x6, 0`. -/
theorem test_I10 : regAfter (vec 0x100#32 0x00032293#32 [(6#5, 0x80000000#32)] []) 5#5 =
    some (0x00000001#32, 0x00000104#32) := by decide

/-- I11: `sltiu x5, x6, -1`. -/
theorem test_I11 : regAfter (vec 0x100#32 0xFFF33293#32 [(6#5, 0xFFFFFFFE#32)] []) 5#5 =
    some (0x00000001#32, 0x00000104#32) := by decide

/-- I12: `sltiu x5, x6, -1`. -/
theorem test_I12 : regAfter (vec 0x100#32 0xFFF33293#32 [(6#5, 0xFFFFFFFF#32)] []) 5#5 =
    some (0x00000000#32, 0x00000104#32) := by decide

/-- I16: `xori x5, x6, 0x7FF`. -/
theorem test_I16 : regAfter (vec 0x100#32 0x7FF34293#32 [(6#5, 0xFFFFFFFF#32)] []) 5#5 =
    some (0xFFFFF800#32, 0x00000104#32) := by decide

/-- I17: `ori x5, x6, -2048`. -/
theorem test_I17 : regAfter (vec 0x100#32 0x80036293#32 [(6#5, 0x00000001#32)] []) 5#5 =
    some (0xFFFFF801#32, 0x00000104#32) := by decide

/-- I18: `andi x5, x6, 0xFF`. -/
theorem test_I18 : regAfter (vec 0x100#32 0x0FF37293#32 [(6#5, 0x12345678#32)] []) 5#5 =
    some (0x00000078#32, 0x00000104#32) := by decide

/-- I19: `andi x5, x6, -16`. -/
theorem test_I19 : regAfter (vec 0x100#32 0xFF037293#32 [(6#5, 0x12345678#32)] []) 5#5 =
    some (0x12345670#32, 0x00000104#32) := by decide

/-- I20: `slli x5, x6, 31`. -/
theorem test_I20 : regAfter (vec 0x100#32 0x01F31293#32 [(6#5, 0x00000003#32)] []) 5#5 =
    some (0x80000000#32, 0x00000104#32) := by decide

/-- I23: `srli x5, x6, 4`. -/
theorem test_I23 : regAfter (vec 0x100#32 0x00435293#32 [(6#5, 0xF0000000#32)] []) 5#5 =
    some (0x0F000000#32, 0x00000104#32) := by decide

/-- I24: `srai x5, x6, 31`. -/
theorem test_I24 : regAfter (vec 0x100#32 0x41F35293#32 [(6#5, 0x80000000#32)] []) 5#5 =
    some (0xFFFFFFFF#32, 0x00000104#32) := by decide

/-- I26: `srai x5, x6, 4`. -/
theorem test_I26 : regAfter (vec 0x100#32 0x40435293#32 [(6#5, 0x70000000#32)] []) 5#5 =
    some (0x07000000#32, 0x00000104#32) := by decide

/-- R1: `add x5, x6, x7`. -/
theorem test_R1 : regAfter (vec 0x100#32 0x007302B3#32 [(6#5, 0x7FFFFFFF#32), (7#5, 0x00000001#32)] []) 5#5 =
    some (0x80000000#32, 0x00000104#32) := by decide

/-- R25: `add x5, x5, x5`. -/
theorem test_R25 : regAfter (vec 0x100#32 0x005282B3#32 [(5#5, 0x40000000#32)] []) 5#5 =
    some (0x80000000#32, 0x00000104#32) := by decide

/-- R4: `sub x5, x6, x7`. -/
theorem test_R4 : regAfter (vec 0x100#32 0x407302B3#32 [(6#5, 0x00000000#32), (7#5, 0x00000001#32)] []) 5#5 =
    some (0xFFFFFFFF#32, 0x00000104#32) := by decide

/-- R5: `sub x5, x6, x7`. -/
theorem test_R5 : regAfter (vec 0x100#32 0x407302B3#32 [(6#5, 0x80000000#32), (7#5, 0x00000001#32)] []) 5#5 =
    some (0x7FFFFFFF#32, 0x00000104#32) := by decide

/-- R8: `sll x5, x6, x7`. -/
theorem test_R8 : regAfter (vec 0x100#32 0x007312B3#32 [(6#5, 0x00000001#32), (7#5, 0x00000020#32)] []) 5#5 =
    some (0x00000001#32, 0x00000104#32) := by decide

/-- R10: `sll x5, x6, x7`. -/
theorem test_R10 : regAfter (vec 0x100#32 0x007312B3#32 [(6#5, 0xFFFFFFFF#32), (7#5, 0xFFFFFFE4#32)] []) 5#5 =
    some (0xFFFFFFF0#32, 0x00000104#32) := by decide

/-- R12: `slt x5, x6, x7`. -/
theorem test_R12 : regAfter (vec 0x100#32 0x007322B3#32 [(6#5, 0x00000000#32), (7#5, 0xFFFFFFFF#32)] []) 5#5 =
    some (0x00000000#32, 0x00000104#32) := by decide

/-- R13: `slt x5, x6, x7`. -/
theorem test_R13 : regAfter (vec 0x100#32 0x007322B3#32 [(6#5, 0x80000000#32), (7#5, 0x7FFFFFFF#32)] []) 5#5 =
    some (0x00000001#32, 0x00000104#32) := by decide

/-- R14: `sltu x5, x6, x7`. -/
theorem test_R14 : regAfter (vec 0x100#32 0x007332B3#32 [(6#5, 0x00000000#32), (7#5, 0xFFFFFFFF#32)] []) 5#5 =
    some (0x00000001#32, 0x00000104#32) := by decide

/-- R15: `sltu x5, x6, x7`. -/
theorem test_R15 : regAfter (vec 0x100#32 0x007332B3#32 [(6#5, 0xFFFFFFFF#32), (7#5, 0x00000000#32)] []) 5#5 =
    some (0x00000000#32, 0x00000104#32) := by decide

/-- R17: `xor x5, x6, x7`. -/
theorem test_R17 : regAfter (vec 0x100#32 0x007342B3#32 [(6#5, 0xFF00FF00#32), (7#5, 0x0FF00FF0#32)] []) 5#5 =
    some (0xF0F0F0F0#32, 0x00000104#32) := by decide

/-- R19: `srl x5, x6, x7`. -/
theorem test_R19 : regAfter (vec 0x100#32 0x007352B3#32 [(6#5, 0x80000000#32), (7#5, 0x00000020#32)] []) 5#5 =
    some (0x80000000#32, 0x00000104#32) := by decide

/-- R20: `sra x5, x6, x7`. -/
theorem test_R20 : regAfter (vec 0x100#32 0x407352B3#32 [(6#5, 0x80000000#32), (7#5, 0x0000001F#32)] []) 5#5 =
    some (0xFFFFFFFF#32, 0x00000104#32) := by decide

/-- R22: `sra x5, x6, x7`. -/
theorem test_R22 : regAfter (vec 0x100#32 0x407352B3#32 [(6#5, 0x40000000#32), (7#5, 0x0000001E#32)] []) 5#5 =
    some (0x00000001#32, 0x00000104#32) := by decide

/-- R23: `or x5, x6, x7`. -/
theorem test_R23 : regAfter (vec 0x100#32 0x007362B3#32 [(6#5, 0xFF00FF00#32), (7#5, 0x0FF00FF0#32)] []) 5#5 =
    some (0xFFF0FFF0#32, 0x00000104#32) := by decide

/-- R24: `and x5, x6, x7`. -/
theorem test_R24 : regAfter (vec 0x100#32 0x007372B3#32 [(6#5, 0xFF00FF00#32), (7#5, 0x0FF00FF0#32)] []) 5#5 =
    some (0x0F000F00#32, 0x00000104#32) := by decide

/-- Y3: `(fence with rd = x5, rs1 = x6)`. -/
theorem test_Y3 : pcAfter (vec 0x100#32 0x0FF3028F#32 [(5#5, 0x00000007#32), (6#5, 0x00000009#32)] []) = some 0x00000104#32 := by decide

/-- Y4: `ecall`. -/
theorem test_Y4 : pcAfter (vec 0x100#32 0x00000073#32 [(10#5, 0x00000001#32), (17#5, 0x0000005D#32)] []) = some 0x00000104#32 := by decide

/-- Y6: `ebreak`. -/
theorem test_Y6 : pcAfter (vec 0x100#32 0x00100073#32 [] []) = some 0x00000104#32 := by decide

/-! ### The errors a step raises (95_test_vectors.md section 2) -/

/-- D2: `(all ones)`. -/
theorem test_D2 : errorOf (vec 0x100#32 0xFFFFFFFF#32 [] []) =
    some (.decodeError (.opcode 0x7F#7) 0xFFFFFFFF#32 0x100#32) := by decide

/-- J13: `(jalr, funct3 = 001)`. -/
theorem test_J13 : errorOf (vec 0x100#32 0x000290E7#32 [] []) =
    some (.decodeError (.funct3 0x1#3) 0x000290E7#32 0x100#32) := by decide

/-- I28: `(srli/srai, funct7 = 0100001)`. -/
theorem test_I28 : errorOf (vec 0x100#32 0x42135293#32 [(6#5, 0x00000001#32)] []) =
    some (.decodeError (.funct7 0x21#7) 0x42135293#32 0x100#32) := by decide

/-- R30: `(funct3 111 with funct7 0100000)`. -/
theorem test_R30 : errorOf (vec 0x100#32 0x407372B3#32 [(6#5, 0x00000003#32), (7#5, 0x00000004#32)] []) =
    some (.decodeError (.funct7 0x20#7) 0x407372B3#32 0x100#32) := by decide

/-- Y13: `uret-like funct12 0x002`. -/
theorem test_Y13 : errorOf (vec 0x100#32 0x00200073#32 [] []) =
    some (.decodeError (.funct12 0x2#12) 0x00200073#32 0x100#32) := by decide

/-- D8: `(bytes 0xFFFE, 0xFFFF: any)`. -/
theorem test_D8 : errorOf (vec 0xFFFE#32 0x00000013#32 [] []) =
    some (.addressOutOfRange .fetch 0xFFFE#32 4 0xFFFE#32) := by decide

/-- L14: `lw x5, -3(x2)`. -/
theorem test_L14 : errorOf (vec 0x0#32 0xFFD12283#32 [(2#5, 0x00010000#32)] []) =
    some (.addressOutOfRange .load 0xFFFD#32 4 0x0#32) := by decide

/-- L16: `lw x0, 0(x5)`. -/
theorem test_L16 : errorOf (vec 0x0#32 0x0002A003#32 [(5#5, 0x80000000#32)] []) =
    some (.addressOutOfRange .load 0x80000000#32 4 0x0#32) := by decide

/-- S8: `sw x5, -2(x2)`. -/
theorem test_S8 : errorOf (vec 0x0#32 0xFE512F23#32 [(2#5, 0x00010000#32), (5#5, 0x01020304#32)] []) =
    some (.addressOutOfRange .store 0xFFFE#32 4 0x0#32) := by decide

/-- S9: `sb x5, 0(x2)`. -/
theorem test_S9 : errorOf (vec 0x0#32 0x00510023#32 [(2#5, 0x00010000#32), (5#5, 0x00000001#32)] []) =
    some (.addressOutOfRange .store 0x10000#32 1 0x0#32) := by decide

/-- The end of memory for a fetch: the last word is in range (D7), one that straddles the end is not (D8). -/
theorem test_fetch_at_the_end : regAfter (vec 0xFFFC#32 0x00100293#32 [] []) 5#5 = some (1#32, 0x00010000#32) ∧
    errorOf (vec 0xFFFE#32 0#32 [] [(0xFFFE, [0x13#8])]) = some (.addressOutOfRange .fetch 0xFFFE#32 4 0xFFFE#32) := by decide

/-- The word the host places runs as the first instruction after reset. -/
theorem test_withFetchWord : regAfter (State.reset.withFetchWord 32 0xFB000113) 2#5 = some (0xFFFFFFB0#32, 4#32) := by decide

/-- With nothing placed the first fetch after reset reads the word 0, which is no instruction. -/
theorem test_reset_step : errorOf State.reset = some (.decodeError (.opcode 0#7) 0#32 0#32) := by decide

/-- Slot 0 is cleared at the end of a step and never read (R21, R126). -/
theorem test_zero_slot : (nextOf { vec 0#32 0x00000033#32 [] [] with x := Vector.replicate 32 7#32 }).map
    (fun t => (t.x[0], t.reg 0#5, t.reg 1#5)) = some (0#32, 0#32, 7#32) := by decide

/-! ### The host's operations (95_test_vectors.md S11, S12) -/

/-- A draw that is not zero. -/
def draw : Draw := { initMem := [0xAA#8, 0xBB#8, 0xCC#8], regs := Vector.replicate 32 5#32, pc := 0x77#32, stackBottom := 9 }

/-- What a host operation answered. -/
def errorOfHost {α : Type} (r : Except HostError α) : Option HostError :=
  match r with
  | .ok _ => none
  | .error e => some e

theorem test_construct_errors :
    errorOfHost (construct 1024 0 true draw) = some .constructionError ∧
    errorOfHost (construct 1024 2048 true draw) = some .constructionError ∧
    errorOfHost (construct (2 ^ 32) 512 true draw) = some .constructionError ∧
    errorOfHost (construct 1024 (-1) true draw) = some .constructionError ∧
    errorOfHost (construct 1024 1024 true draw) = none := by decide

/-- A memory of four bytes, drawn, not yet reset. -/
def four : State :=
  { cfg := { memSize := 4, stackSize := 1, zeroFill := false }, x := (Vector.replicate 32 5#32).set 0 0#32, pc := 0x77#32,
    mem := [(0, 0xAA#8), (1, 0xBB#8), (2, 0xCC#8)], stackTop := 3#32, stackBottom := 9, status := .notReset }

theorem test_construct_draws : construct 4 1 false draw = .ok four := by rfl

theorem test_load : load four [0x13#8, 0#8, 0#8] = .ok { four with mem := [(0, 0x13#8)], stackBottom := 3 } ∧
    errorOfHost (load four []) = some .loadError ∧ errorOfHost (load four [1#8, 2#8, 3#8, 4#8]) = some .loadError := by
  refine ⟨by rfl, by decide, by decide⟩

theorem test_reset_twice : four.doReset.doReset = four.doReset ∧ four.doReset.reg 2#5 = 3#32 ∧ four.doReset.mem = four.mem := by
  decide

/-- An error halts the core, changes nothing else, and no further step is admitted (60_exceptions.md R264, R265). -/
theorem test_error_halts : afterStep four.doReset =
    { four.doReset with status := .halted (.decodeError (.opcode 0x2A#7) 0x00CCBBAA#32 0#32) } ∧
    afterStep (afterStep four.doReset) = afterStep four.doReset := by decide

theorem test_inspect : (inspect four 1 3).2.toOption = some [0xBB#8, 0xCC#8, 0#8] ∧ (inspect four 1 4).2.toOption = none ∧
    (inspect four 0 0).1.regs[8]? = some ("s0/fp", 5#32) := by decide

/-! ### Witnesses: for each statement with hypotheses, values that meet them, clause by clause -/

theorem invariant_of {s : State} (h : s.x[0] = 0#32 ∧ s.mem.wf ∧ (∀ c ∈ s.mem, c.1 < s.cfg.memSize) ∧ s.cfg.Valid ∧
    s.stackTop.toNat + 1 = s.cfg.memSize) : Invariant s := ⟨h.1, h.2.1, h.2.2.1, h.2.2.2.1, h.2.2.2.2⟩

/-- The bytes at the pc are `w`, the core runs, and the fetch is in range. -/
abbrev Fetches (s : State) (w : Word) : Prop :=
  s.status = .running ∧ s.pc.toNat + 4 ≤ s.cfg.memSize ∧
  s.byte (s.pc.toNat + 3) ++ s.byte (s.pc.toNat + 2) ++ s.byte (s.pc.toNat + 1) ++ s.byte s.pc.toNat = w

/-- A store of x5 at x2, the last word of memory: S7 of 95_test_vectors.md. -/
def storing : State := vec 0#32 0xFE512E23#32 [(2#5, 0x10000#32), (5#5, 0x01020304#32)] []

/-- A state whose next word is an unknown opcode: D2. -/
def failing : State := vec 0x100#32 0xFFFFFFFF#32 [] []

theorem storing_invariant : Invariant storing := invariant_of (by decide)
theorem failing_invariant : Invariant failing := invariant_of (by decide)
theorem storing_steps : ∃ t, step storing = .next t :=
  (Option.isSome_iff_exists.1 (by decide : (nextOf storing).isSome)).imp fun _ => step_of_nextOf
theorem failing_raises : step failing = .fault (.raised (.decodeError (.opcode 0x7F#7) 0xFFFFFFFF#32 0x100#32)) :=
  step_of_errorOf (by decide)

theorem witness_DecodeInvertsEncode : (Instr.jal 31#5 0x1FFFFE#21).wf = true ∧ (Instr.beq 0#5 31#5 0x1000#13).wf = true := by
  decide

theorem witness_EncodeInvertsDecode : decode 0xFFF00F93#32 = .ok (.addi 31#5 0#5 0xFFF#12) := by decide

theorem witness_DecodeAgreesWithOpcodeTable : decode 0x407352B3#32 = .ok (.sra 5#5 6#5 7#5) ∧
    (0x407352B3#32 &&& (tableRow (.sra 5#5 6#5 7#5)).1 = (tableRow (.sra 5#5 6#5 7#5)).2) := by decide

/-- Both ends of every range. -/
theorem witness_ImmediatesRoundTrip :
    ((-2048 : Int) ≤ -2048 ∧ (-2048 : Int) ≤ 2047) ∧ ((-2048 : Int) ≤ 2047 ∧ (2047 : Int) ≤ 2047) ∧
    ((-4096 : Int) ≤ -4096 ∧ (-4096 : Int) ≤ 4094 ∧ (-4096 : Int) % 2 = 0) ∧
    ((-4096 : Int) ≤ 4094 ∧ (4094 : Int) ≤ 4094 ∧ (4094 : Int) % 2 = 0) ∧
    ((-1048576 : Int) ≤ -1048576 ∧ (-1048576 : Int) ≤ 1048574 ∧ (-1048576 : Int) % 2 = 0) ∧
    ((-1048576 : Int) ≤ 1048574 ∧ (1048574 : Int) ≤ 1048574 ∧ (1048574 : Int) % 2 = 0) := by decide

/-- The four levels, each at the last word of memory; in the second and third the fields of the later levels are bad too. -/
theorem witness_UnusedCodesStopTheRun :
    (Fetches (vec 0xFFFC#32 0x00000036#32 [] []) 0x00000036#32 ∧ rejectOf 0x00000036#32 = some (.opcode 0x36#7)) ∧
    (Fetches (vec 0xFFFC#32 0xFFFFFFE7#32 [] []) 0xFFFFFFE7#32 ∧ rejectOf 0xFFFFFFE7#32 = some (.funct3 7#3)) ∧
    (Fetches (vec 0xFFFC#32 0x02001013#32 [] []) 0x02001013#32 ∧ rejectOf 0x02001013#32 = some (.funct7 1#7)) ∧
    (Fetches (vec 0xFFFC#32 0x00200073#32 [] []) 0x00200073#32 ∧ rejectOf 0x00200073#32 = some (.funct12 2#12)) := by decide

/-- A fetch of the last word and one a byte further. -/
theorem witness_StepRunsDecodedInstruction :
    (Fetches (vec 0xFFFC#32 0x00100293#32 [] []) 0x00100293#32 ∧ decode 0x00100293#32 = .ok (.addi 5#5 0#5 1#12)) ∧
    (vec 0xFFFD#32 0#32 [] []).status = .running ∧
    (vec 0xFFFD#32 0#32 [] []).cfg.memSize < (vec 0xFFFD#32 0#32 [] []).pc.toNat + 4 := by decide

/-- The three clauses: D8, D2 and S8 of 95_test_vectors.md. -/
theorem witness_ErrorsComeInOrder :
    (vec 0xFFFE#32 0#32 [] []).cfg.memSize < (vec 0xFFFE#32 0#32 [] []).pc.toNat + 4 ∧
    (Fetches failing 0xFFFFFFFF#32 ∧ rejectOf 0xFFFFFFFF#32 = some (.opcode 0x7F#7)) ∧
    (let s := vec 0#32 0xFE512F23#32 [(2#5, 0x10000#32)] []
     Fetches s 0xFE512F23#32 ∧ decode 0xFE512F23#32 = .ok (.sw 2#5 5#5 (-2#12)) ∧
     (Instr.sw 2#5 5#5 (-2#12)).access s = some (.store, 0xFFFE#32, 4) ∧ s.cfg.memSize < (0xFFFE#32).toNat + 4) := by decide

theorem witness_StepCompletesExactlyWhenNothingRaises : storing.status = .running ∧ failing.status = .running := by decide

/-- One state for each of the four errors: D8, D2, L14, S9. -/
theorem witness_RaisedErrorsAreTheListedOnes :
    (vec 0xFFFE#32 0#32 [] []).status = .running ∧ failing.status = .running ∧
    errorOf (vec 0xFFFE#32 0#32 [] []) = some (.addressOutOfRange .fetch 0xFFFE#32 4 0xFFFE#32) ∧
    errorOf failing = some (.decodeError (.opcode 0x7F#7) 0xFFFFFFFF#32 0x100#32) ∧
    errorOf (vec 0#32 0xFFD12283#32 [(2#5, 0x10000#32)] []) = some (.addressOutOfRange .load 0xFFFD#32 4 0#32) ∧
    errorOf (vec 0#32 0x00510023#32 [(2#5, 0x10000#32)] []) = some (.addressOutOfRange .store 0x10000#32 1 0#32) := by decide

theorem witness_RaisedErrorsAreTheListedOnes_refused : step four = .refused .notReset := rfl

theorem witness_ErrorsArePrecise : ∃ e, step failing = .fault (.raised e) := ⟨_, failing_raises⟩

theorem witness_StatusAdmitsSteps : four.status = .notReset ∧
    (failing.takeError (.decodeError (.opcode 0x7F#7) 0xFFFFFFFF#32 0x100#32)).status =
      .halted (.decodeError (.opcode 0x7F#7) 0xFFFFFFFF#32 0x100#32) ∧ storing.status = .running := by decide

theorem witness_StatusAdmitsSteps_construct : construct 4 1 false draw = .ok four := test_construct_draws

theorem witness_HaltedCoreStaysHalted : (afterStep failing).status =
    .halted (.decodeError (.opcode 0x7F#7) 0xFFFFFFFF#32 0x100#32) ∧
    errorOfHost (load (afterStep failing) [0x13#8]) = none := by decide

/-- A step that writes register 0. -/
theorem witness_ZeroRegisterAfterEveryStep : ∃ t, step (vec 0x100#32 0x12345037#32 [] []) = .next t :=
  (Option.isSome_iff_exists.1 (by decide : (nextOf (vec 0x100#32 0x12345037#32 [] [])).isSome)).imp fun _ => step_of_nextOf

theorem witness_StepKeepsInvariant : Invariant storing ∧ ∃ t, step storing = .next t := ⟨storing_invariant, storing_steps⟩

theorem witness_HostOperationsKeepInvariant : construct 4 1 false draw = .ok four ∧ Invariant four ∧
    (∃ t, load four [0x13#8] = .ok t) ∧ Invariant failing :=
  ⟨test_construct_draws, invariant_of (by decide), ⟨_, rfl⟩, failing_invariant⟩

theorem witness_NextPcOfEveryInstruction : (∃ t, exec (.beq 0#5 0#5 8#13) storing = .next t) ∧
    ∃ e, step failing = .fault (.raised e) := ⟨⟨_, rfl⟩, ⟨_, failing_raises⟩⟩

theorem witness_InstructionsTouchOnlyTheirRegisters : (∃ t, exec (.add 5#5 6#5 7#5) storing = .next t) ∧
    (Instr.add 5#5 6#5 7#5).dest ≠ some 2#5 ∧ (5#5 ∉ (Instr.add 5#5 6#5 7#5).sources) := ⟨⟨_, rfl⟩, by decide, by decide⟩

theorem witness_OnlyStoresChangeMemory : ∃ t, step storing = .next t ∧ t.byte 0xFFFF ≠ storing.byte 0xFFFF := by
  obtain ⟨t, h, hb⟩ : ∃ t, nextOf storing = some t ∧ t.byte 0xFFFF = 1#8 :=
    ⟨(nextOf storing).get (by decide), by simp, by decide⟩
  exact ⟨t, step_of_nextOf h, by rw [hb]; decide⟩

theorem witness_BookkeepingIsNeverWritten : ∃ t, step storing = .next t := storing_steps

/-- Each width at the last place in range and at the first place out of range. -/
theorem witness_MemReadIsLittleEndian :
    ((0xFFFF#32).toNat + 1 ≤ storing.cfg.memSize ∧ storing.cfg.memSize < (0x10000#32).toNat + 1) ∧
    ((0xFFFE#32).toNat + 2 ≤ storing.cfg.memSize ∧ storing.cfg.memSize < (0xFFFF#32).toNat + 2) ∧
    ((0xFFFC#32).toNat + 4 ≤ storing.cfg.memSize ∧ storing.cfg.memSize < (0xFFFD#32).toNat + 4) := by decide

theorem witness_MemWriteWritesExactlyItsBytes : storing.mem.wf ∧
    ((0xFFFF#32).toNat + 1 ≤ storing.cfg.memSize ∧ storing.cfg.memSize < (0x10000#32).toNat + 1) ∧
    ((0xFFFE#32).toNat + 2 ≤ storing.cfg.memSize ∧ storing.cfg.memSize < (0xFFFF#32).toNat + 2) ∧
    ((0xFFFC#32).toNat + 4 ≤ storing.cfg.memSize ∧ storing.cfg.memSize < (0xFFFD#32).toNat + 4) := by decide

theorem witness_StoreThenLoadReturnsTheValue : storing.mem.wf ∧ ∃ t, storing.memWrite 0xFFFC#32 4 0x12345678#32 = .ok t :=
  ⟨by decide, ⟨_, if_pos (by decide)⟩⟩

/-- A word store at the last word and reads that end with it, that overlap its start, and that it leaves alone; two byte
stores, two halfword stores and four byte stores, all at the last word. -/
theorem witness_MixedWidthAccessesSeeBytes : Invariant storing ∧
    (∃ t, storing.memWrite 0xFFFC#32 4 0x12345678#32 = .ok t) ∧ (0xFFFF#32).toNat + 1 ≤ storing.cfg.memSize ∧
    (0xFFFA#32).toNat + 4 ≤ storing.cfg.memSize ∧ (0#32).toNat + 2 ≤ storing.cfg.memSize ∧
    (∃ s1 s2, storing.memWrite 0xFFFE#32 1 1#32 = .ok s1 ∧ s1.memWrite (0xFFFE#32 + 1#32) 1 2#32 = .ok s2) ∧
    (0xFFFE#32).toNat + 2 ≤ storing.cfg.memSize ∧
    (∃ s1 s2, storing.memWrite 0xFFFC#32 2 1#32 = .ok s1 ∧ s1.memWrite (0xFFFC#32 + 2#32) 2 2#32 = .ok s2) ∧
    (0xFFFC#32).toNat + 4 ≤ storing.cfg.memSize ∧
    ∃ s1 s2 s3 s4, storing.memWrite 0xFFFC#32 1 1#32 = .ok s1 ∧ s1.memWrite (0xFFFC#32 + 1#32) 1 2#32 = .ok s2 ∧
      s2.memWrite (0xFFFC#32 + 2#32) 1 3#32 = .ok s3 ∧ s3.memWrite (0xFFFC#32 + 3#32) 1 4#32 = .ok s4 :=
  ⟨storing_invariant, ⟨_, if_pos (by decide)⟩, by decide, by decide, by decide,
    ⟨_, _, if_pos (by decide), if_pos (by decide)⟩, by decide, ⟨_, _, if_pos (by decide), if_pos (by decide)⟩, by decide,
    ⟨_, _, _, _, if_pos (by decide), if_pos (by decide), if_pos (by decide), if_pos (by decide)⟩⟩

/-- `sw x5, 4(x0)` at address 0 with the word of `addi x6, x0, 42` in x5. -/
theorem witness_StoredCodeRunsNext : let s := vec 0#32 0x00502223#32 [(5#5, 0x02A00313#32)] []
    Invariant s ∧ Fetches s 0x00502223#32 ∧ s.pc.toNat + 8 ≤ s.cfg.memSize ∧
    decode 0x00502223#32 = .ok (.sw 0#5 5#5 4#12) ∧ s.reg 0#5 + (4#12).signExtend 32 = s.pc + 4#32 ∧
    decode (s.reg 5#5) = .ok (.addi 6#5 0#5 42#12) :=
  ⟨invariant_of (by decide), by decide, by decide, by decide, by decide, by decide⟩

theorem witness_MemoryIsItsBytes : Memory.wf [(3, 7#8), (5, 1#8)] ∧
    Memory.setByte (Memory.setByte [(5, 1#8)] 3 7#8) 9 0#8 = [(3, 7#8), (5, 1#8)] := by decide

theorem witness_JalLinksAndJumps : (0x100000#21).getLsbD 0 = false ∧ (0x0FFFFE#21).getLsbD 0 = false := by decide

theorem witness_JalrLinksAndJumps : 0b001#3 ≠ 0b000#3 := by decide

/-- Equal and unequal registers, and an even offset. -/
theorem witness_EqualityBranches : (0x1000#13).getLsbD 0 = false ∧ storing.reg 0#5 = storing.reg 1#5 ∧
    storing.reg 0#5 ≠ storing.reg 2#5 := by decide

/-- -1 and 1: less one way, not less the other way, and equal registers. -/
theorem witness_SignedBranches : let s := vec 0#32 0#32 [(1#5, 0xFFFFFFFF#32), (2#5, 1#32)] []
    (0x0FFE#13).getLsbD 0 = false ∧ (s.reg 1#5).toInt < (s.reg 2#5).toInt ∧ ¬ (s.reg 2#5).toInt < (s.reg 1#5).toInt ∧
    (s.reg 2#5).toInt ≤ (s.reg 2#5).toInt := by decide

theorem witness_UnsignedBranches : let s := vec 0#32 0#32 [(1#5, 0xFFFFFFFF#32), (2#5, 1#32)] []
    (0x0FFE#13).getLsbD 0 = false ∧ (s.reg 2#5).toNat < (s.reg 1#5).toNat ∧ ¬ (s.reg 1#5).toNat < (s.reg 2#5).toNat ∧
    (s.reg 2#5).toNat ≤ (s.reg 2#5).toNat := by decide

theorem witness_ByteLoads : (0xFFFF#32 = storing.reg 2#5 + (-1#12).signExtend 32 ∧
    (0xFFFF#32).toNat + 1 ≤ storing.cfg.memSize) ∧ (0x10000#32 = storing.reg 2#5 + (0#12).signExtend 32 ∧
    storing.cfg.memSize < (0x10000#32).toNat + 1) := by decide

theorem witness_HalfwordLoads : (0xFFFE#32 = storing.reg 2#5 + (-2#12).signExtend 32 ∧
    (0xFFFE#32).toNat + 2 ≤ storing.cfg.memSize) ∧ (0xFFFF#32 = storing.reg 2#5 + (-1#12).signExtend 32 ∧
    storing.cfg.memSize < (0xFFFF#32).toNat + 2) := by decide

theorem witness_WordLoad : (0xFFFC#32 = storing.reg 2#5 + (-4#12).signExtend 32 ∧
    (0xFFFC#32).toNat + 4 ≤ storing.cfg.memSize) ∧ (0xFFFD#32 = storing.reg 2#5 + (-3#12).signExtend 32 ∧
    storing.cfg.memSize < (0xFFFD#32).toNat + 4) := by decide

theorem witness_ByteStore : storing.mem.wf ∧ (0xFFFF#32 = storing.reg 2#5 + (-1#12).signExtend 32 ∧
    (0xFFFF#32).toNat + 1 ≤ storing.cfg.memSize) ∧ (0x10000#32 = storing.reg 2#5 + (0#12).signExtend 32 ∧
    storing.cfg.memSize < (0x10000#32).toNat + 1) := by decide

theorem witness_HalfwordStore : storing.mem.wf ∧ (0xFFFE#32 = storing.reg 2#5 + (-2#12).signExtend 32 ∧
    (0xFFFE#32).toNat + 2 ≤ storing.cfg.memSize) ∧ (0xFFFF#32 = storing.reg 2#5 + (-1#12).signExtend 32 ∧
    storing.cfg.memSize < (0xFFFF#32).toNat + 2) := by decide

theorem witness_WordStore : storing.mem.wf ∧ (0xFFFC#32 = storing.reg 2#5 + (-4#12).signExtend 32 ∧
    (0xFFFC#32).toNat + 4 ≤ storing.cfg.memSize) ∧ (0xFFFD#32 = storing.reg 2#5 + (-3#12).signExtend 32 ∧
    storing.cfg.memSize < (0xFFFD#32).toNat + 4) := by decide

theorem witness_ShiftImmediate : 0b0100000#7 ≠ 0b0000000#7 ∧ (0b0000001#7 ≠ 0b0000000#7 ∧ 0b0000001#7 ≠ 0b0100000#7) := by decide

theorem witness_ShiftRegister : 0b0100000#7 ≠ 0b0000000#7 ∧
    ¬(0b0100000#7 = 0b0100000#7 ∧ (0b001#3 = 0b000#3 ∨ 0b001#3 = 0b101#3)) := by decide

theorem witness_SystemInstructionsOnlyAdvance : 0b001#3 ≠ 0b000#3 := by decide

/-- The smallest and the largest sizes, and a size past each bound. -/
theorem witness_ConstructChecksItsSizes :
    ((0 : Int) < 1 ∧ (1 : Int) ≤ 1 ∧ (1 : Int) < 2 ^ 32) ∧
    ((0 : Int) < 1 ∧ (1 : Int) ≤ 4294967295 ∧ (4294967295 : Int) < 2 ^ 32) ∧
    (0 : Int) ≤ 0 ∧ (4 : Int) < 5 ∧ (2 : Int) ^ 32 ≤ 4294967296 ∧ 0 < four.cfg.memSize := by decide

/-- The shortest and the longest image for four bytes, and one past each bound. -/
theorem witness_LoadCopiesTheImage : four.mem.wf ∧ (0 < [1#8].length ∧ [1#8].length < four.cfg.memSize) ∧
    (0 < [1#8, 2#8, 3#8].length ∧ [1#8, 2#8, 3#8].length < four.cfg.memSize) ∧ ([] : List Byte).length = 0 ∧
    four.cfg.memSize ≤ [1#8, 2#8, 3#8, 4#8].length := by decide

theorem witness_ResetSetsRegistersAndPc : Invariant four ∧ (31#5 : RegIdx) ≠ 2#5 ∧ four.status ≠ .running ∧
    (afterStep failing).status ≠ .running ∧ ∃ t, load four [0x13#8] = .ok t :=
  ⟨invariant_of (by decide), by decide, by decide, by decide, ⟨_, rfl⟩⟩

/-- Both ways of filling memory, with the longest image. -/
theorem witness_BootGivesTheStartState :
    (∃ s s', construct 4 1 false draw = .ok s ∧ load s [0x13#8, 0#8, 0#8] = .ok s') ∧
    ∃ s s', construct 4 1 true draw = .ok s ∧ load s [0x13#8, 0#8, 0#8] = .ok s' :=
  ⟨⟨_, _, rfl, rfl⟩, ⟨_, _, rfl, rfl⟩⟩

theorem witness_InspectShowsTheState : 1 + 3 ≤ four.cfg.memSize ∧ four.cfg.memSize < 1 + 4 := by decide

theorem witness_IdleLoopKeepsTheState : Invariant (vec 0xFFFC#32 0x0000006F#32 [] []) ∧
    Fetches (vec 0xFFFC#32 0x0000006F#32 [] []) 0x0000006F#32 := ⟨invariant_of (by decide), by decide⟩

end Sys2Proof.Tests
end

section
/-! PROOFS. The statements about the state: the invariant, the next pc, the registers an instruction touches, and the
fields no step writes or reads. -/

namespace Sys2Proof.Machine

variable {i : Instr} {s t u : State} {g : State → State} {rd r q : RegIdx} {v w target addr : Word} {n : Nat} {e : Error}

/-! ### Registers after two writes, and after Reset -/

@[simp] theorem setReg_setReg_self : (s.setReg r v).setReg r w = s.setReg r w := by
  unfold State.setReg
  split
  · rfl
  · simp

theorem setReg_comm (h : q ≠ r) : (s.setReg r v).setReg q w = (s.setReg q w).setReg r v := by
  by_cases hr : r = 0#5
  · subst hr; rfl
  by_cases hq : q = 0#5
  · subst hq; rfl
  simp only [State.setReg, hr, hq, if_false]
  rw [Vector.set_comm _ _ (toNat_ne_of_ne h)]

theorem setPc_setReg : (s.setPc target).setReg r v = (s.setReg r v).setPc target := by
  unfold State.setReg
  split <;> rfl

/-- The registers Reset leaves: x2 is the stack top and every other register is 0 (10_state.md R35). -/
theorem reg_of_resetRegs {top : Word} (h : s.x = resetRegs top) : s.reg r = if r = 2#5 then top else 0#32 := by
  by_cases h0 : r = 0#5
  · subst h0; rfl
  rw [reg_eq_slot s r h0]
  by_cases h2 : r = 2#5
  · subst h2; simp [h, resetRegs]
  · have hne : 2 ≠ r.toNat := toNat_ne_of_ne h2
    simp [h, resetRegs, h2, Vector.getElem_set_ne, hne]

/-! ### What an instruction and a step leave -/

theorem exec_next_book (h : exec i s = .next u) : SameBookkeeping s u := by
  have hshape := exec_shape i s
  rw [h] at hshape
  cases hshape with
  | register => exact sameBookkeeping_setReg_setPc
  | pcOnly => exact onlyPc_setPc.book
  | store => exact ⟨rfl, rfl, rfl, rfl⟩

theorem exec_next_pc (h : exec i s = .next u) : u.pc = i.nextPc s := by
  have hshape := exec_shape i s
  rw [h] at hshape
  cases hshape with
  | register _ _ _ _ _ _ hp => exact hp.symm
  | pcOnly _ _ _ hp => exact hp.symm
  | store _ _ _ _ _ _ hp => exact hp.symm

theorem exec_next_reg (h : exec i s = .next u) (hr : i.dest ≠ some r) : u.reg r = s.reg r := by
  have hshape := exec_shape i s
  rw [h] at hshape
  cases hshape with
  | register rd _ _ hd => exact onlyRegister_setReg_setPc.regs r fun hrd => hr (hrd ▸ hd)
  | pcOnly => rfl
  | store => rfl

/-- Memory after an instruction: as before, or after one write in range. -/
theorem exec_next_mem (h : exec i s = .next u) :
    u.mem = s.mem ∨ ∃ (addr : Word) (n : Nat) (v : Word),
      addr.toNat + n ≤ s.cfg.memSize ∧ u.mem = s.mem.writeLE addr.toNat n v := by
  have hshape := exec_shape i s
  rw [h] at hshape
  cases hshape with
  | register => exact .inl (by simp)
  | pcOnly => exact .inl rfl
  | store addr n v _ _ hr => exact .inr ⟨addr, n, v, hr, rfl⟩

/-- An instruction never refuses, and its only fault is the error of its data access. -/
theorem exec_next_or_raised (i : Instr) (s : State) :
    (∃ t, exec i s = .next t) ∨ ∃ e, exec i s = .fault (.raised e) := by
  have hshape := exec_shape i s
  generalize exec i s = result at hshape ⊢
  cases hshape with
  | register | pcOnly | store => exact .inl ⟨_, rfl⟩
  | raised => exact .inr ⟨_, rfl⟩

theorem step_of_running (h : s.status = .running) : step s = runCycle s := by
  simp only [step, admittedStep, h]

theorem runCycle_next_or_raised (s : State) :
    (∃ t, runCycle s = .next t) ∨ ∃ e, runCycle s = .fault (.raised e) := by
  cases hf : s.fetch with
  | error e => exact .inr ⟨e, by simp only [runCycle, hf, raise]⟩
  | ok w =>
    cases hd : decode w with
    | error reason => exact .inr ⟨.decodeError reason w s.pc, by simp only [runCycle, hf, hd, raise]⟩
    | ok i =>
      simp only [runCycle, hf, hd]
      obtain ⟨t, ht⟩ | ⟨e, he⟩ := exec_next_or_raised i s
      · exact .inl ⟨t.reassertZero, by rw [ht]; rfl⟩
      · exact .inr ⟨e, by rw [he]; rfl⟩

theorem afterStep_of_raised (h : step s = .fault (.raised e)) : afterStep s = s.takeError e := by
  simp only [afterStep, h]

theorem step_next_book (h : step s = .next t) : SameBookkeeping s t := by
  obtain ⟨-, _, _, u, -, -, hexec, rfl⟩ := step_next_cases h
  obtain ⟨hcfg, htop, hbottom, hstatus⟩ := exec_next_book hexec
  exact ⟨hcfg, htop, hbottom, hstatus⟩

/-- An instruction keeps memory canonical and inside `MEM_SIZE`. -/
theorem exec_next_keepsMem (h : exec i s = .next u) (hinv : Invariant s) :
    u.mem.wf ∧ ∀ c ∈ u.mem, c.1 < s.cfg.memSize := by
  obtain hmem | ⟨addr, n, v, hr, hmem⟩ := exec_next_mem h <;> rw [hmem]
  · exact ⟨hinv.memWf, hinv.memInRange⟩
  · refine ⟨Memory.wf_writeLE hinv.memWf v, fun c hc => ?_⟩
    obtain ⟨-, hlt⟩ | hold := Memory.mem_writeLE hc
    · exact lt_of_lt_of_le hlt hr
    · exact hinv.memInRange c hold

/-- Settles O15: the re-assertion clears slot 0, the instruction keeps memory canonical and in range, and the fields the
other clauses speak of are never written. -/
theorem stepKeepsInvariant : Obligations.StepKeepsInvariant := by
  intro s t hinv h
  obtain ⟨-, _, _, u, -, -, hexec, rfl⟩ := step_next_cases h
  obtain ⟨hwf, hrange⟩ := exec_next_keepsMem hexec hinv
  obtain ⟨hcfg, htop, -, -⟩ := exec_next_book hexec
  exact {
    zeroSlot := reassertZero_slot u
    memWf := hwf
    memInRange := by rw [reassertZero_cfg, hcfg]; exact hrange
    cfgValid := by rw [reassertZero_cfg, hcfg]; exact hinv.cfgValid
    topFixed := by rw [reassertZero_cfg, reassertZero_stackTop, hcfg, htop]; exact hinv.topFixed }

/-- Settles O18: the table's next pc is part of what `exec` can do, and an error changes the status only. -/
theorem nextPcOfEveryInstruction : Obligations.NextPcOfEveryInstruction := by
  refine ⟨fun i s t => exec_next_pc, fun s e h => ?_⟩
  rw [afterStep_of_raised h, takeError_pc]

/-- Settles O21: only the registers, the pc and memory are ever written, and a step is admitted on a running core only. -/
theorem bookkeepingIsNeverWritten : Obligations.BookkeepingIsNeverWritten := by
  intro s t h
  have hbook := step_next_book h
  obtain ⟨hrunning, -⟩ := step_next_cases h
  exact ⟨hbook, hbook.status.trans hrunning⟩

/-! ### Two states an instruction cannot tell apart -/

/-- `u` gives `i` what `s` gives it (its source registers, the pc, memory and `MEM_SIZE`), and whatever `i` can write into
`u` is `g` of the same write into `s`. -/
structure SameInputs (i : Instr) (g : State → State) (s u : State) : Prop where
  pc : u.pc = s.pc
  mem : u.mem = s.mem
  memSize : u.cfg.memSize = s.cfg.memSize
  reads : ∀ q ∈ i.sources, u.reg q = s.reg q
  register : ∀ rd v target, i.dest = some rd → (u.setReg rd v).setPc target = g ((s.setReg rd v).setPc target)
  bytes : i.dest = none → ∀ m target, State.setPc { u with mem := m } target = g (State.setPc { s with mem := m } target)

namespace SameInputs

theorem npc (h : SameInputs i g s u) : u.npc = s.npc := by rw [npc_eq, npc_eq, h.pc]

theorem setPc_eq (h : SameInputs i g s u) (hd : i.dest = none) : u.setPc target = g (s.setPc target) := by
  calc u.setPc target = State.setPc { u with mem := s.mem } target := by rw [← h.mem]
    _ = g (s.setPc target) := h.bytes hd s.mem target

theorem writeBack_eq (h : SameInputs i g s u) (hd : i.dest = some rd) (hv : v = w) :
    writeBack rd v u = onNext g (writeBack rd w s) := by
  rw [hv, writeBack, h.npc, h.register rd w _ hd]; rfl

theorem linkAndJump_eq (h : SameInputs i g s u) {target' : Word} (hd : i.dest = some rd) (ht : target = target') :
    linkAndJump rd target u = onNext g (linkAndJump rd target' s) := by
  rw [ht, linkAndJump, h.npc, h.register rd _ _ hd]; rfl

theorem branchIf_eq (h : SameInputs i g s u) {taken taken' : Bool} {target' : Word} (hd : i.dest = none)
    (hc : taken = taken') (ht : target = target') : branchIf taken target u = onNext g (branchIf taken' target' s) := by
  rw [hc, ht, branchIf, h.npc, h.setPc_eq hd]; rfl

theorem advance_eq (h : SameInputs i g s u) (hd : i.dest = none) : advance u = onNext g (advance s) := by
  rw [advance, h.npc, h.setPc_eq hd]; rfl

theorem loadTo_eq (h : SameInputs i g s u) {addr' : Word} {widen : BitVec (8 * n) → Word} (hd : i.dest = some rd)
    (ha : addr = addr') : loadTo rd addr n widen u = onNext g (loadTo rd addr' n widen s) := by
  subst ha
  by_cases hr : addr.toNat + n ≤ s.cfg.memSize
  · rw [loadTo_inRange hr, loadTo_inRange (h.memSize ▸ hr), h.mem]
    exact h.writeBack_eq hd rfl
  · rw [loadTo_outOfRange (Nat.not_le.1 hr), loadTo_outOfRange (h.memSize ▸ Nat.not_le.1 hr), h.pc]; rfl

theorem storeAt_eq (h : SameInputs i g s u) {addr' : Word} (hd : i.dest = none) (ha : addr = addr') (hv : v = w) :
    storeAt addr n v u = onNext g (storeAt addr' n w s) := by
  subst ha hv
  by_cases hr : addr.toNat + n ≤ s.cfg.memSize
  · rw [storeAt_inRange hr, storeAt_inRange (h.memSize ▸ hr), State.afterStore, h.npc, h.mem, h.bytes hd]; rfl
  · rw [storeAt_outOfRange (Nat.not_le.1 hr), storeAt_outOfRange (h.memSize ▸ Nat.not_le.1 hr), h.pc]; rfl

/-- On the two states the instruction answers alike, and what it leaves of `u` is `g` of what it leaves of `s`. -/
theorem exec_eq (h : SameInputs i g s u) : exec i u = onNext g (exec i s) := by
  have hreads := h.reads
  cases i with
  | lui => exact h.writeBack_eq rfl rfl
  | auipc => exact h.writeBack_eq rfl (by simp only [pcRelative, h.pc])
  | addi | slti | sltiu | xori | ori | andi | slli | srli | srai
  | add | sub | sll | slt | sltu | xor | srl | sra | or | and =>
    simp only [Instr.sources, List.forall_mem_cons] at hreads
    exact h.writeBack_eq rfl (by simp only [hreads])
  | jal => exact h.linkAndJump_eq rfl (by simp only [pcRelative, h.pc])
  | jalr =>
    simp only [Instr.sources, List.forall_mem_cons] at hreads
    exact h.linkAndJump_eq rfl (by simp only [jalrTarget, hreads])
  | beq | bne | blt | bge | bltu | bgeu =>
    simp only [Instr.sources, List.forall_mem_cons] at hreads
    exact h.branchIf_eq rfl (by simp only [hreads]) (by simp only [pcRelative, h.pc])
  | lb | lh | lw | lbu | lhu =>
    simp only [Instr.sources, List.forall_mem_cons] at hreads
    exact h.loadTo_eq rfl (by simp only [loadAddr, hreads])
  | sb | sh | sw =>
    simp only [Instr.sources, List.forall_mem_cons] at hreads
    exact h.storeAt_eq rfl (by simp only [storeAddr, hreads]) (by simp only [hreads])
  | fence | ecall | ebreak => exact h.advance_eq rfl

end SameInputs

/-! ### A register the instruction does not read -/

/-- A change of register `r` carried over an instruction with destination `d`: lost if the instruction overwrites `r`. -/
def State.carryReg (d : Option RegIdx) (r : RegIdx) (v : Word) (t : State) : State :=
  if d = some r then t else t.setReg r v

theorem setReg_carryReg :
    ((s.setReg r v).setReg rd w).setPc target = State.carryReg (some rd) r v ((s.setReg rd w).setPc target) := by
  by_cases h : rd = r
  · subst h; simp [State.carryReg]
  · simp [State.carryReg, h, setPc_setReg, setReg_comm h]

theorem setReg_mem_carryReg {m : Memory} :
    State.setPc { s.setReg r v with mem := m } target = State.carryReg none r v (State.setPc { s with mem := m } target) := by
  unfold State.carryReg State.setReg
  split <;> rfl

theorem sameInputs_setReg (h : r ∉ i.sources) : SameInputs i (State.carryReg i.dest r v) s (s.setReg r v) where
  pc := by simp
  mem := by simp
  memSize := by simp
  reads q hq := setReg_reg_of_ne s r q v fun hqr => h (hqr ▸ hq)
  register rd w target hd := by rw [hd]; exact setReg_carryReg
  bytes hd m target := by rw [hd]; exact setReg_mem_carryReg

/-- Settles O19: `exec` writes at most the destination, and a changed register that is no source is carried through. -/
theorem instructionsTouchOnlyTheirRegisters : Obligations.InstructionsTouchOnlyTheirRegisters := by
  refine ⟨fun i s t r => exec_next_reg, fun i s r v h => ?_⟩
  rw [(sameInputs_setReg h).exec_eq]
  cases exec i s <;> rfl

/-! ### The advisory values -/

/-- The state with other values of `stack_top`, `stack_bottom`, `STACK_SIZE` and `ZERO_FILL`. -/
def State.withAdvisory (top : Word) (bottom stackSize : Nat) (zeroFill : Bool) (t : State) : State :=
  { t with stackTop := top, stackBottom := bottom, cfg := { t.cfg with stackSize := stackSize, zeroFill := zeroFill } }

section Advisory

variable {top : Word} {bottom stackSize : Nat} {zeroFill : Bool}

theorem withAdvisory_setReg : (s.withAdvisory top bottom stackSize zeroFill).setReg r v =
    (s.setReg r v).withAdvisory top bottom stackSize zeroFill := by
  unfold State.setReg
  split <;> rfl

theorem sameInputs_withAdvisory :
    SameInputs i (State.withAdvisory top bottom stackSize zeroFill) s (s.withAdvisory top bottom stackSize zeroFill) where
  pc := rfl
  mem := rfl
  memSize := rfl
  reads _ _ := rfl
  register rd v target _ := by rw [withAdvisory_setReg]; rfl
  bytes _ _ _ := rfl

theorem withAdvisory_runCycle : runCycle (s.withAdvisory top bottom stackSize zeroFill) =
    onNext (State.withAdvisory top bottom stackSize zeroFill) (runCycle s) := by
  have hfetch : (s.withAdvisory top bottom stackSize zeroFill).fetch = s.fetch := rfl
  cases hf : s.fetch with
  | error e => simp only [runCycle, hfetch, hf]; rfl
  | ok w =>
    cases hd : decode w with
    | error reason => simp only [runCycle, hfetch, hf, hd]; rfl
    | ok i =>
      simp only [runCycle, hfetch, hf, hd, sameInputs_withAdvisory.exec_eq]
      cases exec i s <;> rfl

theorem withAdvisory_step : step (s.withAdvisory top bottom stackSize zeroFill) =
    onNext (State.withAdvisory top bottom stackSize zeroFill) (step s) := by
  have hstatus : (s.withAdvisory top bottom stackSize zeroFill).status = s.status := rfl
  cases hs : s.status with
  | notReset | halted => simp only [step, admittedStep, hstatus, hs]; rfl
  | running => rw [step_of_running hs, step_of_running (hstatus.trans hs), withAdvisory_runCycle]

end Advisory

/-- Settles O22: fetch, admission and every instruction answer alike with the four values replaced. -/
theorem advisoryValuesAreNeverRead : Obligations.AdvisoryValuesAreNeverRead := by
  intro s top bottom stackSize zeroFill change
  have hstep : step (change s) = onNext change (step s) := withAdvisory_step
  rw [hstep]
  cases step s <;> rfl

/-! ### The status, and the machine after reset -/

theorem construct_ok_status {memSize stackSize : Int} {zeroFill : Bool} {draw : Draw}
    (h : construct memSize stackSize zeroFill draw = .ok s) : s.status = .notReset := by
  unfold construct at h
  split at h
  · cases h; rfl
  · cases h

/-- Settles O12: admission by status, and on a running core the cycle completes or raises. -/
theorem statusAdmitsSteps : Obligations.StatusAdmitsSteps := by
  refine ⟨fun s h => ?_, fun s e h => ?_, fun s h => ?_, fun _ _ _ _ _ => construct_ok_status, doReset_status,
    fun s e h => ?_⟩
  · simp only [step, admittedStep, h]
  · simp only [step, admittedStep, h]
  · rw [step_of_running h]; exact runCycle_next_or_raised s
  · rw [afterStep_of_raised h, takeError_status]

theorem reset_invariant : Invariant State.reset where
  zeroSlot := rfl
  memWf := Memory.wf_nil
  memInRange := by simp [State.reset]
  cfgValid := by decide
  topFixed := rfl

/-- Settles O16: the invariant holds of the reset state, and its registers are those Reset leaves. -/
theorem resetStateMeetsInvariant : Obligations.ResetStateMeetsInvariant :=
  ⟨reset_invariant, rfl, rfl, fun _ => reg_of_resetRegs rfl⟩

end Sys2Proof.Machine
end

section
/-! PROOFS. The statements about memory: what reads and writes see of its bytes, which instructions change it, and that
the canonical list is determined by them. -/

namespace Sys2Proof.Machine.Memory

variable {m m' : Memory} {a x n k : Nat} {v : Word} {c : Host.Cell}

/-! ### A canonical memory is its bytes -/

/-- The cells of a canonical list are the addresses that do not read as an unlisted one, each with its byte. -/
theorem mem_iff_byte (h : m.wf) : c ∈ m ↔ byte m c.1 = c.2 ∧ c.2 ≠ unlistedByte := by
  induction m with
  | nil => simp only [List.not_mem_nil, byte, false_iff]; exact fun ⟨he, hne⟩ => hne he.symm
  | cons d rest ih =>
    by_cases hcd : c.1 = d.1
    · have hrest : c ∉ rest := fun hc => (wf_head_lt h hc).ne' hcd
      have hd : d.2 ≠ unlistedByte := h.2 d (by simp)
      simp only [List.mem_cons, hrest, or_false, byte, hcd, if_true, Prod.ext_iff, true_and]
      exact ⟨fun he => ⟨he.symm, he ▸ hd⟩, fun he => he.1.symm⟩
    · have hne : c ≠ d := fun he => hcd (congrArg Prod.fst he)
      simp only [List.mem_cons, hne, false_or, byte, hcd, if_false]
      exact ih (wf_tail h)

theorem eq_of_byte_eq (h : m.wf) (h' : m'.wf) (hb : ∀ a, m.byte a = m'.byte a) : m = m' := by
  have hsame : ∀ c, c ∈ m ↔ c ∈ m' := fun c => by rw [mem_iff_byte h, mem_iff_byte h', hb]
  have hnodup : ∀ {l : Memory}, l.wf → l.Nodup := fun hl => hl.1.imp fun hlt he => hlt.ne (congrArg Prod.fst he)
  have hperm : m.Perm m' := (List.perm_ext_iff_of_nodup (hnodup h) (hnodup h')).2 hsame
  exact hperm.eq_of_pairwise (fun _ _ _ _ hlt hgt => absurd hlt hgt.asymm) h.1 h'.1

/-! ### Reads and writes, byte by byte -/

/-- The bytes of memory after a write: those of the value inside it, the old ones outside. -/
theorem byte_writeLE (h : m.wf) : byte (writeLE m a n v) x =
    if a ≤ x ∧ x < a + n then v.extractLsb' (8 * (x - a)) 8 else byte m x := by
  split
  · next hin =>
    obtain ⟨k, rfl⟩ := Nat.exists_eq_add_of_le hin.1
    rw [byte_writeLE_inside h (by omega), Nat.add_sub_cancel_left]
  · exact byte_writeLE_outside (by omega)

/-- Byte `k` of a read is the byte `k` addresses up. -/
theorem extractLsb'_readLE (hk : k < n) : (readLE m a n).extractLsb' (8 * k) 8 = byte m (a + k) := by
  induction n generalizing a k with
  | zero => omega
  | succ n ih =>
    rw [readLE_succ]
    cases k with
    | zero => exact (BitVec.extractLsb'_append_eq_of_add_le (by omega)).trans BitVec.extractLsb'_eq_self
    | succ k =>
      calc (readLE m (a + 1) n ++ byte m a).extractLsb' (8 * (k + 1)) 8
        _ = (readLE m (a + 1) n).extractLsb' (8 * k) 8 := BitVec.extractLsb'_append_eq_of_le (by omega)
        _ = byte m (a + (k + 1)) := by rw [ih (by omega), Nat.add_right_comm, Nat.add_assoc]

/-- A read of the bytes just written gives the low bits of the value. -/
theorem readLE_writeLE_self (h : m.wf) : readLE (writeLE m a n v) a n = v.extractLsb' 0 (8 * n) := by
  induction n generalizing m a v with
  | zero => exact BitVec.eq_of_zero_length rfl
  | succ n ih =>
    have hshift : (v >>> 8).extractLsb' 0 (8 * n) = v.extractLsb' 8 (8 * n) := by ext i hi; simp
    have hlow : byte (writeLE m a (n + 1) v) a = v.extractLsb' 0 8 := byte_writeLE_inside (k := 0) h (by omega)
    have hhigh : readLE (writeLE m a (n + 1) v) (a + 1) n = (v >>> 8).extractLsb' 0 (8 * n) := ih (wf_setByte h)
    rw [readLE_succ, hlow, hhigh, hshift]
    exact BitVec.extractLsb'_append_extractLsb'_eq_extractLsb' rfl

end Sys2Proof.Machine.Memory

namespace Sys2Proof.Machine

variable {s t : State} {i : Instr} {kind : AccessKind} {addr v w : Word} {n k x : Nat}

/-- Settles O28: a list with rising addresses is determined by its cells, and a canonical list's cells by its bytes. -/
theorem memoryIsItsBytes : Obligations.MemoryIsItsBytes := fun _ _ => Memory.eq_of_byte_eq

/-! ### The read primitive at the three widths -/

theorem memRead_one (h : addr.toNat + 1 ≤ s.cfg.memSize) : s.memRead kind addr 1 = .ok (s.byte addr.toNat) := by
  rw [memRead_inRange h, Memory.readLE_one]; rfl

theorem memRead_two (h : addr.toNat + 2 ≤ s.cfg.memSize) :
    s.memRead kind addr 2 = .ok (s.byte (addr.toNat + 1) ++ s.byte addr.toNat) := by
  rw [memRead_inRange h, Memory.readLE_two]; rfl

theorem memRead_four (h : addr.toNat + 4 ≤ s.cfg.memSize) : s.memRead kind addr 4 =
    .ok (s.byte (addr.toNat + 3) ++ s.byte (addr.toNat + 2) ++ s.byte (addr.toNat + 1) ++ s.byte addr.toNat) := by
  rw [memRead_inRange h, Memory.readLE_four]; rfl

/-- Settles O23: the little-endian read at each width, and the range check. -/
theorem memReadIsLittleEndian : Obligations.MemReadIsLittleEndian :=
  fun _ _ _ => ⟨memRead_one, memRead_two, memRead_four, fun _ => memRead_outOfRange⟩

/-! ### The write primitive -/

/-- A write that is answered was in range, and it is the write of the list. -/
theorem memWrite_ok (h : s.memWrite addr n v = .ok t) :
    addr.toNat + n ≤ s.cfg.memSize ∧ t = { s with mem := s.mem.writeLE addr.toNat n v } := by
  by_cases hr : addr.toNat + n ≤ s.cfg.memSize
  · rw [memWrite_inRange hr] at h
    exact ⟨hr, (Except.ok.inj h).symm⟩
  · rw [memWrite_outOfRange (Nat.not_le.1 hr)] at h
    cases h

theorem memWrite_ok_cfg (h : s.memWrite addr n v = .ok t) : t.cfg = s.cfg := by
  obtain ⟨-, rfl⟩ := memWrite_ok h
  rfl

theorem memWrite_ok_wf (hm : s.mem.wf) (h : s.memWrite addr n v = .ok t) : t.mem.wf := by
  obtain ⟨-, rfl⟩ := memWrite_ok h
  exact Memory.wf_writeLE hm v

/-- The bytes after a write: those of the value inside it, the old ones outside. -/
theorem memWrite_ok_byte (hm : s.mem.wf) (h : s.memWrite addr n v = .ok t) : t.byte x =
    if addr.toNat ≤ x ∧ x < addr.toNat + n then v.extractLsb' (8 * (x - addr.toNat)) 8 else s.byte x := by
  obtain ⟨-, rfl⟩ := memWrite_ok h
  exact Memory.byte_writeLE hm

theorem onlyBytes_withWrite : OnlyBytes addr.toNat n s { s with mem := s.mem.writeLE addr.toNat n v } where
  regs _ := rfl
  bytes _ := Memory.byte_writeLE_outside
  book := ⟨rfl, rfl, rfl, rfl⟩

/-- Settles O24: in range the write is that of the list, whose bytes inside and outside are known; else it raises. -/
theorem memWriteWritesExactlyItsBytes : Obligations.MemWriteWritesExactlyItsBytes :=
  fun _ _ _ _ hm _ => ⟨fun hr => ⟨_, memWrite_inRange hr, onlyBytes_withWrite, rfl,
    fun _ => Memory.byte_writeLE_inside hm⟩, memWrite_outOfRange⟩

/-! ### Accesses of different widths -/

/-- An address inside an access that is in range does not wrap. -/
theorem toNat_add_of_inRange (hinv : Invariant s) (hr : addr.toNat + n ≤ s.cfg.memSize) (hk : k < n) :
    (addr + BitVec.ofNat 32 k).toNat = addr.toNat + k := by
  obtain ⟨-, -, hsize⟩ := hinv.cfgValid
  rw [BitVec.toNat_add, BitVec.toNat_ofNat]
  omega

/-- A read after a write, byte by byte. -/
theorem memRead_after_memWrite {a : Word} {m : Nat} (hm : s.mem.wf) (h : s.memWrite addr n v = .ok t)
    (hr : a.toNat + m ≤ s.cfg.memSize) : ∃ r, t.memRead kind a m = .ok r ∧ ∀ k, k < m → r.extractLsb' (8 * k) 8 =
      if addr.toNat ≤ a.toNat + k ∧ a.toNat + k < addr.toNat + n
      then v.extractLsb' (8 * (a.toNat + k - addr.toNat)) 8 else s.byte (a.toNat + k) := by
  refine ⟨_, memRead_inRange (memWrite_ok_cfg h ▸ hr), fun k hk => ?_⟩
  rw [Memory.extractLsb'_readLE hk]
  exact memWrite_ok_byte hm h

/-- Four bytes are two halfwords. -/
theorem bytes_eq_halves (b3 b2 b1 b0 : Byte) : (b3 ++ b2 ++ b1 ++ b0 : Word) = (b3 ++ b2) ++ (b1 ++ b0) := by
  rw [BitVec.append_assoc]; rfl

theorem half_eq_bytes (v : Word) : v.extractLsb' 0 16 = v.extractLsb' 8 8 ++ v.extractLsb' 0 8 :=
  (BitVec.extractLsb'_append_extractLsb'_eq_extractLsb' (len₁ := 8) (len₂ := 8) rfl).symm

theorem memRead_after_two_byte_writes {s1 s2 : State} {v0 v1 : Word} (hinv : Invariant s)
    (h1 : s.memWrite addr 1 v0 = .ok s1) (h2 : s1.memWrite (addr + 1#32) 1 v1 = .ok s2)
    (hr : addr.toNat + 2 ≤ s.cfg.memSize) :
    s2.memRead kind addr 2 = .ok (v1.extractLsb' 0 8 ++ v0.extractLsb' 0 8) := by
  have hm1 := memWrite_ok_wf hinv.memWf h1
  have ha1 : (addr + 1#32).toNat = addr.toNat + 1 := toNat_add_of_inRange hinv hr (by omega)
  rw [memRead_two (by rwa [memWrite_ok_cfg h2, memWrite_ok_cfg h1])]
  simp [memWrite_ok_byte hm1 h2, memWrite_ok_byte hinv.memWf h1, ha1]

theorem memRead_after_two_half_writes {s1 s2 : State} {v0 v1 : Word} (hinv : Invariant s)
    (h1 : s.memWrite addr 2 v0 = .ok s1) (h2 : s1.memWrite (addr + 2#32) 2 v1 = .ok s2)
    (hr : addr.toNat + 4 ≤ s.cfg.memSize) :
    s2.memRead kind addr 4 = .ok (v1.extractLsb' 0 16 ++ v0.extractLsb' 0 16) := by
  have hm1 := memWrite_ok_wf hinv.memWf h1
  have ha2 : (addr + 2#32).toNat = addr.toNat + 2 := toNat_add_of_inRange hinv hr (by omega)
  rw [memRead_four (by rwa [memWrite_ok_cfg h2, memWrite_ok_cfg h1]), bytes_eq_halves, half_eq_bytes, half_eq_bytes]
  simp [memWrite_ok_byte hm1 h2, memWrite_ok_byte hinv.memWf h1, ha2]

theorem memRead_after_four_byte_writes {s1 s2 s3 s4 : State} {v0 v1 v2 v3 : Word} (hinv : Invariant s)
    (hr : addr.toNat + 4 ≤ s.cfg.memSize) (h1 : s.memWrite addr 1 v0 = .ok s1)
    (h2 : s1.memWrite (addr + 1#32) 1 v1 = .ok s2) (h3 : s2.memWrite (addr + 2#32) 1 v2 = .ok s3)
    (h4 : s3.memWrite (addr + 3#32) 1 v3 = .ok s4) : s4.memRead kind addr 4 =
      .ok (v3.extractLsb' 0 8 ++ v2.extractLsb' 0 8 ++ v1.extractLsb' 0 8 ++ v0.extractLsb' 0 8) := by
  have hm1 := memWrite_ok_wf hinv.memWf h1
  have hm2 := memWrite_ok_wf hm1 h2
  have hm3 := memWrite_ok_wf hm2 h3
  have ha1 : (addr + 1#32).toNat = addr.toNat + 1 := toNat_add_of_inRange hinv hr (by omega)
  have ha2 : (addr + 2#32).toNat = addr.toNat + 2 := toNat_add_of_inRange hinv hr (by omega)
  have ha3 : (addr + 3#32).toNat = addr.toNat + 3 := toNat_add_of_inRange hinv hr (by omega)
  rw [memRead_four (by rwa [memWrite_ok_cfg h4, memWrite_ok_cfg h3, memWrite_ok_cfg h2, memWrite_ok_cfg h1])]
  simp [memWrite_ok_byte hm3 h4, memWrite_ok_byte hm2 h3, memWrite_ok_byte hm1 h2, memWrite_ok_byte hinv.memWf h1,
    ha1, ha2, ha3]

/-- Settles O26: each byte of a read is the byte of memory there, and the last write that covers it put it there. -/
theorem mixedWidthAccessesSeeBytes : Obligations.MixedWidthAccessesSeeBytes :=
  ⟨fun _ _ _ _ _ _ _ hinv h _ _ hr => memRead_after_memWrite hinv.memWf h hr,
    fun _ _ _ _ _ _ => memRead_after_two_byte_writes, fun _ _ _ _ _ _ => memRead_after_two_half_writes,
    fun _ _ _ _ _ _ _ _ _ _ => memRead_after_four_byte_writes⟩

/-! ### The steps that change memory -/

/-- A fetch that is answered gives the four bytes at the pc. -/
theorem fetch_ok (h : s.fetch = .ok w) :
    w = s.byte (s.pc.toNat + 3) ++ s.byte (s.pc.toNat + 2) ++ s.byte (s.pc.toNat + 1) ++ s.byte s.pc.toNat := by
  by_cases hr : s.pc.toNat + 4 ≤ s.cfg.memSize
  · rw [fetch_inRange hr] at h
    exact (Except.ok.inj h).symm
  · rw [fetch_outOfRange (Nat.not_le.1 hr)] at h
    cases h

/-- An instruction changes a byte only inside its own store. -/
theorem exec_next_byte_ne (h : exec i s = .next t) (hx : t.byte x ≠ s.byte x) :
    ∃ addr n, i.access s = some (.store, addr, n) ∧ addr.toNat ≤ x ∧ x < addr.toNat + n := by
  have hshape := exec_shape i s
  rw [h] at hshape
  cases hshape with
  | register => exact absurd (by simp) hx
  | pcOnly => exact absurd rfl hx
  | store addr n v _ ha =>
    refine ⟨addr, n, ha, ?_⟩
    by_contra hout
    exact hx (Memory.byte_writeLE_outside (by omega))

/-- Settles O20: the step ran the instruction decoded from the word at the pc, and that changes only what it stores. -/
theorem onlyStoresChangeMemory : Obligations.OnlyStoresChangeMemory := by
  intro s t a h ha
  obtain ⟨-, w, i, u, hfetch, hdecode, hexec, rfl⟩ := step_next_cases h
  obtain ⟨addr, n, haccess, hcover⟩ := exec_next_byte_ne hexec ha
  exact ⟨i, addr, n, fetch_ok hfetch ▸ hdecode, haccess, hcover⟩

/-! ### Storing over the next instruction -/

/-- A running core that fetches the word of `i` executes `i`, and then x0 is re-asserted. -/
theorem step_of_fetch (hs : s.status = .running) (hf : s.fetch = .ok w) (hd : decode w = .ok i) :
    step s = onNext State.reassertZero (exec i s) := by
  simp only [step_of_running hs, runCycle, hf, hd]

@[simp] theorem reassertZero_fetch : s.reassertZero.fetch = s.fetch := rfl

/-- After a word is stored at the next instruction's address, it is the word fetched there. -/
theorem fetch_afterStore (hm : s.mem.wf) (hr : s.npc.toNat + 4 ≤ s.cfg.memSize) :
    (s.afterStore s.npc 4 w).fetch = .ok w := by
  calc (s.afterStore s.npc 4 w).fetch
    _ = .ok (Memory.readLE (s.mem.writeLE s.npc.toNat 4 w) s.npc.toNat 4) := memRead_inRange hr
    _ = .ok w := by rw [Memory.readLE_writeLE_self hm]; exact congrArg _ BitVec.extractLsb'_eq_self

/-- Settles O27: the store writes the word where the next fetch reads it, and nothing stands between the two. -/
theorem storedCodeRunsNext : Obligations.StoredCodeRunsNext := by
  intro s rs1 rs2 imm j hinv hs hr hdecode haddr hj
  have hnpc : s.npc.toNat = s.pc.toNat + 4 := toNat_add_of_inRange hinv hr (by omega)
  have hstore : s.npc.toNat + 4 ≤ s.cfg.memSize := by omega
  have hexec : exec (.sw rs1 rs2 imm) s = .next (s.afterStore s.npc 4 (s.reg rs2)) := by
    calc exec (.sw rs1 rs2 imm) s
      _ = storeAt (s.reg rs1 + imm.signExtend 32) 4 (s.reg rs2) s := rfl
      _ = .next (s.afterStore s.npc 4 (s.reg rs2)) := by rw [haddr]; exact storeAt_inRange hstore
  have hfetch : (s.afterStore s.npc 4 (s.reg rs2)).reassertZero.fetch = .ok (s.reg rs2) := by
    rw [reassertZero_fetch]; exact fetch_afterStore hinv.memWf hstore
  refine ⟨(s.afterStore s.npc 4 (s.reg rs2)).reassertZero, ?_, ?_⟩
  · rw [step_of_fetch hs (memRead_four (by omega)) hdecode, hexec]; rfl
  · rw [step_of_fetch (by simpa using hs) hfetch hj]
    cases exec j _ <;> rfl

end Sys2Proof.Machine
end

section
/-! PROOFS. The statements about the encoding: decoder and encoder undo each other, both agree with the opcode table, and
immediates keep their values. -/

namespace Sys2Proof

variable {w : Word} {f7 : BitVec 7} {f3 : BitVec 3} {f12 : BitVec 12} {op : BitVec 7} {i : Instr}

/-! ### Decoding a layout -/

theorem decode_encode (h : i.wf = true) : decode (encode i) = .ok i := by
  cases i with
  | lui => simp [encode, decode_lui]
  | auipc => simp [encode, decode_auipc]
  | jal => simp [encode, decode_jal, offJOf_encJ (h := eq_of_beq h)]
  | jalr => simp [encode, decode_jalr, decodeJalr]
  | beq | bne | blt | bge | bltu | bgeu => simp [encode, decode_branch, decodeBranch, offBOf_encB (h := eq_of_beq h)]
  | lb | lh | lw | lbu | lhu => simp [encode, decode_load, decodeLoad]
  | sb | sh | sw => simp [encode, decode_store, decodeStore]
  | addi | slti | sltiu | xori | ori | andi | slli | srli | srai => simp [encode, decode_opImm, decodeOpImm]
  | add | sub | sll | slt | sltu | xor | srl | sra | or | and => simp [encode, decode_op, decodeOp]
  | fence => simp [encode, decode_miscMem, decodeMiscMem]
  | ecall | ebreak => simp [encode, decode_system, decodeSystem]

/-- Settles O1: in each group of the opcode map, the keys of the layout select the instruction and its fields are the
operands. -/
theorem decodeInvertsEncode : Obligations.DecodeInvertsEncode := fun _ => decode_encode

/-! ### A word is the layout of its operands under the keys it holds -/

theorem encU_of_keys (hop : opcodeOf w = op) : encU (imm20Of w) (rdOf w) op = w := hop ▸ encU_fields w

theorem encJ_of_keys (hop : opcodeOf w = op) : encJ (offJOf w) (rdOf w) op = w := hop ▸ encJ_fields w

theorem encI_of_keys (h : opcodeOf w = op ∧ funct3Of w = f3) : encI (immIOf w) (rs1Of w) f3 (rdOf w) op = w :=
  h.1 ▸ h.2 ▸ encI_fields w

theorem encS_of_keys (h : opcodeOf w = op ∧ funct3Of w = f3) : encS (immSOf w) (rs2Of w) (rs1Of w) f3 op = w :=
  h.1 ▸ h.2 ▸ encS_fields w

theorem encB_of_keys (h : opcodeOf w = op ∧ funct3Of w = f3) : encB (offBOf w) (rs2Of w) (rs1Of w) f3 op = w :=
  h.1 ▸ h.2 ▸ encB_fields w

theorem encR_of_keys (h : opcodeOf w = op ∧ funct3Of w = f3 ∧ funct7Of w = f7) :
    encR f7 (rs2Of w) (rs1Of w) f3 (rdOf w) op = w := h.1 ▸ h.2.1 ▸ h.2.2 ▸ encR_fields w

/-- ECALL and EBREAK: all of `w[31:20]` is a key (R98). -/
theorem encI_of_keys_funct12 (h : opcodeOf w = op ∧ funct3Of w = f3 ∧ funct12Of w = f12) :
    encI f12 (rs1Of w) f3 (rdOf w) op = w := h.2.2 ▸ encI_of_keys ⟨h.1, h.2.1⟩

/-! ### What a group decodes is well-formed and has the word's encoding -/

theorem branchOffsetEven_offBOf : branchOffsetEven (offBOf w) = true := beq_iff_eq.2 (offBOf_even w)

theorem jumpOffsetEven_offJOf : jumpOffsetEven (offJOf w) = true := beq_iff_eq.2 (offJOf_even w)

theorem decodeJalr_ok (hop : opcodeOf w = 0x67#7) (h : decodeJalr w = .ok i) : i.wf = true ∧ encode i = w := by
  unfold decodeJalr at h
  split_ifs at h with hf3
  cases h
  exact ⟨rfl, encI_of_keys ⟨hop, hf3⟩⟩

theorem decodeBranch_ok (hop : opcodeOf w = 0x63#7) (h : decodeBranch w = .ok i) : i.wf = true ∧ encode i = w := by
  unfold decodeBranch at h
  split_ifs at h with hf3 hf3 hf3 hf3 hf3 hf3 <;> cases h <;>
    exact ⟨branchOffsetEven_offBOf, encB_of_keys ⟨hop, hf3⟩⟩

theorem decodeLoad_ok (hop : opcodeOf w = 0x03#7) (h : decodeLoad w = .ok i) : i.wf = true ∧ encode i = w := by
  unfold decodeLoad at h
  split_ifs at h with hf3 hf3 hf3 hf3 hf3 <;> cases h <;> exact ⟨rfl, encI_of_keys ⟨hop, hf3⟩⟩

theorem decodeStore_ok (hop : opcodeOf w = 0x23#7) (h : decodeStore w = .ok i) : i.wf = true ∧ encode i = w := by
  unfold decodeStore at h
  split_ifs at h with hf3 hf3 hf3 <;> cases h <;> exact ⟨rfl, encS_of_keys ⟨hop, hf3⟩⟩

/-- Where funct3 is 001 or 101 funct7 is a key too (R97); the group's last branch is 101, the one value left. -/
theorem decodeOpImm_ok (hop : opcodeOf w = 0x13#7) (h : decodeOpImm w = .ok i) : i.wf = true ∧ encode i = w := by
  unfold decodeOpImm at h
  obtain hf3 | hf3 | hf3 | hf3 | hf3 | hf3 | hf3 | hf3 := funct3_values (funct3Of w) <;>
    simp only [hf3, BitVec.reduceEq, if_true, if_false] at h
  case inr.inl =>
    split_ifs at h with hf7
    cases h
    exact ⟨rfl, encR_of_keys ⟨hop, hf3, hf7⟩⟩
  case inr.inr.inr.inr.inr.inl =>
    split_ifs at h with hf7 hf7 <;> cases h <;> exact ⟨rfl, encR_of_keys ⟨hop, hf3, hf7⟩⟩
  all_goals
    cases h
    exact ⟨rfl, encI_of_keys ⟨hop, hf3⟩⟩

/-- Under funct7 0 all eight values of funct3 are used; the group's last branch is 111, the one value left. -/
theorem decodeOp_ok (hop : opcodeOf w = 0x33#7) (h : decodeOp w = .ok i) : i.wf = true ∧ encode i = w := by
  unfold decodeOp at h
  obtain hf3 | hf3 | hf3 | hf3 | hf3 | hf3 | hf3 | hf3 := funct3_values (funct3Of w) <;>
    simp only [hf3, BitVec.reduceEq, if_true, if_false] at h
  all_goals
    split_ifs at h with hf7 hf7 <;> cases h <;> exact ⟨rfl, encR_of_keys ⟨hop, hf3, hf7⟩⟩

theorem decodeMiscMem_ok (hop : opcodeOf w = 0x0F#7) (h : decodeMiscMem w = .ok i) : i.wf = true ∧ encode i = w := by
  unfold decodeMiscMem at h
  split_ifs at h with hf3
  cases h
  exact ⟨rfl, encI_of_keys ⟨hop, hf3⟩⟩

theorem decodeSystem_ok (hop : opcodeOf w = 0x73#7) (h : decodeSystem w = .ok i) : i.wf = true ∧ encode i = w := by
  unfold decodeSystem at h
  split_ifs at h with hf3 hf12 hf12 <;> cases h <;> exact ⟨rfl, encI_of_keys_funct12 ⟨hop, hf3, hf12⟩⟩

theorem decode_ok (h : decode w = .ok i) : i.wf = true ∧ encode i = w := by
  obtain ⟨hop, hg⟩ | ⟨hop, hg⟩ | ⟨hop, hg⟩ | ⟨hop, hg⟩ | ⟨hop, hg⟩ | ⟨hop, hg⟩ | ⟨hop, hg⟩ | ⟨hop, hg⟩ | ⟨hop, hg⟩ |
    ⟨hop, hg⟩ | ⟨hop, hg⟩ | ⟨-, hg⟩ := decode_groups w <;> rw [hg] at h
  · cases h; exact ⟨rfl, encU_of_keys hop⟩
  · cases h; exact ⟨rfl, encU_of_keys hop⟩
  · cases h; exact ⟨jumpOffsetEven_offJOf, encJ_of_keys hop⟩
  · exact decodeJalr_ok hop h
  · exact decodeBranch_ok hop h
  · exact decodeLoad_ok hop h
  · exact decodeStore_ok hop h
  · exact decodeOpImm_ok hop h
  · exact decodeOp_ok hop h
  · exact decodeMiscMem_ok hop h
  · exact decodeSystem_ok hop h
  · cases h

/-- Settles O2: the instruction's operands are the word's fields and the keys are what its group checked, so its layout is
the word. -/
theorem encodeInvertsDecode : Obligations.EncodeInvertsDecode := fun _ _ => decode_ok

/-! ### The masks of the opcode table keep exactly the key fields -/

theorem and_opcodeMask : w &&& 0x0000007F#32 = encU 0#20 0#5 (opcodeOf w) := by
  refine BitVec.eq_of_getLsbD_eq fun k hk => ?_
  rw [BitVec.getLsbD_and, getLsbD_encU, getLsbD_opcodeOf]
  interval_cases k <;> simp

theorem and_funct3Mask : w &&& 0x0000707F#32 = encI 0#12 0#5 (funct3Of w) 0#5 (opcodeOf w) := by
  refine BitVec.eq_of_getLsbD_eq fun k hk => ?_
  rw [BitVec.getLsbD_and, getLsbD_encI]
  simp only [getLsbD_opcodeOf, getLsbD_funct3Of]
  interval_cases k <;> simp

theorem and_funct7Mask : w &&& 0xFE00707F#32 = encR (funct7Of w) 0#5 0#5 (funct3Of w) 0#5 (opcodeOf w) := by
  refine BitVec.eq_of_getLsbD_eq fun k hk => ?_
  rw [BitVec.getLsbD_and, getLsbD_encR]
  simp only [getLsbD_opcodeOf, getLsbD_funct3Of, getLsbD_funct7Of]
  interval_cases k <;> simp

theorem and_funct12Mask : w &&& 0xFFF0707F#32 = encI (funct12Of w) 0#5 (funct3Of w) 0#5 (opcodeOf w) := by
  refine BitVec.eq_of_getLsbD_eq fun k hk => ?_
  rw [BitVec.getLsbD_and, getLsbD_encI]
  simp only [getLsbD_opcodeOf, getLsbD_funct3Of, getLsbD_funct12Of]
  interval_cases k <;> simp

theorem keys_of_opcodeMask (h : w &&& 0x0000007F#32 = encU 0#20 0#5 op) : opcodeOf w = op := by
  rw [and_opcodeMask] at h
  simpa using congrArg opcodeOf h

theorem keys_of_funct3Mask (h : w &&& 0x0000707F#32 = encI 0#12 0#5 f3 0#5 op) : opcodeOf w = op ∧ funct3Of w = f3 := by
  rw [and_funct3Mask] at h
  exact ⟨by simpa using congrArg opcodeOf h, by simpa using congrArg funct3Of h⟩

theorem keys_of_funct7Mask (h : w &&& 0xFE00707F#32 = encR f7 0#5 0#5 f3 0#5 op) :
    opcodeOf w = op ∧ funct3Of w = f3 ∧ funct7Of w = f7 := by
  rw [and_funct7Mask] at h
  exact ⟨by simpa using congrArg opcodeOf h, by simpa using congrArg funct3Of h, by simpa using congrArg funct7Of h⟩

theorem keys_of_funct12Mask (h : w &&& 0xFFF0707F#32 = encI f12 0#5 f3 0#5 op) :
    opcodeOf w = op ∧ funct3Of w = f3 ∧ funct12Of w = f12 := by
  rw [and_funct12Mask] at h
  exact ⟨by simpa using congrArg opcodeOf h, by simpa using congrArg funct3Of h, by simpa using congrArg funct12Of h⟩

/-- The word of an instruction, masked, is its row's match. -/
theorem encode_matches_tableRow : encode i &&& (tableRow i).1 = (tableRow i).2 := by
  cases i with
  | lui | auipc | jal => simp only [encode, tableRow, and_opcodeMask, opcodeOf_encU, opcodeOf_encJ]; rfl
  | jalr | lb | lh | lw | lbu | lhu | addi | slti | sltiu | xori | ori | andi | fence =>
    simp only [encode, tableRow, and_funct3Mask, opcodeOf_encI, funct3Of_encI]; rfl
  | beq | bne | blt | bge | bltu | bgeu =>
    simp only [encode, tableRow, and_funct3Mask, opcodeOf_encB, funct3Of_encB]; rfl
  | sb | sh | sw => simp only [encode, tableRow, and_funct3Mask, opcodeOf_encS, funct3Of_encS]; rfl
  | slli | srli | srai | add | sub | sll | slt | sltu | xor | srl | sra | or | and =>
    simp only [encode, tableRow, and_funct7Mask, opcodeOf_encR, funct3Of_encR, funct7Of_encR]; rfl
  | ecall | ebreak => simp only [encode, tableRow, and_funct12Mask, opcodeOf_encI, funct3Of_encI, funct12Of_encI]; rfl

/-! ### A word that matches a row is an instruction of the row -/

/-- The instruction of the same row whose operands are the fields of `w`. -/
def Instr.withOperandsOf (w : Word) : Instr → Instr
  | .lui _ _ => .lui (rdOf w) (imm20Of w)
  | .auipc _ _ => .auipc (rdOf w) (imm20Of w)
  | .jal _ _ => .jal (rdOf w) (offJOf w)
  | .jalr _ _ _ => .jalr (rdOf w) (rs1Of w) (immIOf w)
  | .beq _ _ _ => .beq (rs1Of w) (rs2Of w) (offBOf w)
  | .bne _ _ _ => .bne (rs1Of w) (rs2Of w) (offBOf w)
  | .blt _ _ _ => .blt (rs1Of w) (rs2Of w) (offBOf w)
  | .bge _ _ _ => .bge (rs1Of w) (rs2Of w) (offBOf w)
  | .bltu _ _ _ => .bltu (rs1Of w) (rs2Of w) (offBOf w)
  | .bgeu _ _ _ => .bgeu (rs1Of w) (rs2Of w) (offBOf w)
  | .lb _ _ _ => .lb (rdOf w) (rs1Of w) (immIOf w)
  | .lh _ _ _ => .lh (rdOf w) (rs1Of w) (immIOf w)
  | .lw _ _ _ => .lw (rdOf w) (rs1Of w) (immIOf w)
  | .lbu _ _ _ => .lbu (rdOf w) (rs1Of w) (immIOf w)
  | .lhu _ _ _ => .lhu (rdOf w) (rs1Of w) (immIOf w)
  | .sb _ _ _ => .sb (rs1Of w) (rs2Of w) (immSOf w)
  | .sh _ _ _ => .sh (rs1Of w) (rs2Of w) (immSOf w)
  | .sw _ _ _ => .sw (rs1Of w) (rs2Of w) (immSOf w)
  | .addi _ _ _ => .addi (rdOf w) (rs1Of w) (immIOf w)
  | .slti _ _ _ => .slti (rdOf w) (rs1Of w) (immIOf w)
  | .sltiu _ _ _ => .sltiu (rdOf w) (rs1Of w) (immIOf w)
  | .xori _ _ _ => .xori (rdOf w) (rs1Of w) (immIOf w)
  | .ori _ _ _ => .ori (rdOf w) (rs1Of w) (immIOf w)
  | .andi _ _ _ => .andi (rdOf w) (rs1Of w) (immIOf w)
  | .slli _ _ _ => .slli (rdOf w) (rs1Of w) (shamtOf w)
  | .srli _ _ _ => .srli (rdOf w) (rs1Of w) (shamtOf w)
  | .srai _ _ _ => .srai (rdOf w) (rs1Of w) (shamtOf w)
  | .add _ _ _ => .add (rdOf w) (rs1Of w) (rs2Of w)
  | .sub _ _ _ => .sub (rdOf w) (rs1Of w) (rs2Of w)
  | .sll _ _ _ => .sll (rdOf w) (rs1Of w) (rs2Of w)
  | .slt _ _ _ => .slt (rdOf w) (rs1Of w) (rs2Of w)
  | .sltu _ _ _ => .sltu (rdOf w) (rs1Of w) (rs2Of w)
  | .xor _ _ _ => .xor (rdOf w) (rs1Of w) (rs2Of w)
  | .srl _ _ _ => .srl (rdOf w) (rs1Of w) (rs2Of w)
  | .sra _ _ _ => .sra (rdOf w) (rs1Of w) (rs2Of w)
  | .or _ _ _ => .or (rdOf w) (rs1Of w) (rs2Of w)
  | .and _ _ _ => .and (rdOf w) (rs1Of w) (rs2Of w)
  | .fence _ _ _ => .fence (rdOf w) (rs1Of w) (immIOf w)
  | .ecall _ _ => .ecall (rdOf w) (rs1Of w)
  | .ebreak _ _ => .ebreak (rdOf w) (rs1Of w)

theorem tableRow_withOperandsOf : tableRow (i.withOperandsOf w) = tableRow i := by cases i <;> rfl

theorem wf_withOperandsOf : (i.withOperandsOf w).wf = true := by
  cases i with
  | jal => exact jumpOffsetEven_offJOf
  | beq | bne | blt | bge | bltu | bgeu => exact branchOffsetEven_offBOf
  | _ => rfl

theorem encode_withOperandsOf (h : w &&& (tableRow i).1 = (tableRow i).2) : encode (i.withOperandsOf w) = w := by
  cases i with
  | lui | auipc => exact encU_of_keys (keys_of_opcodeMask h)
  | jal => exact encJ_of_keys (keys_of_opcodeMask h)
  | jalr | lb | lh | lw | lbu | lhu | addi | slti | sltiu | xori | ori | andi | fence =>
    exact encI_of_keys (keys_of_funct3Mask h)
  | beq | bne | blt | bge | bltu | bgeu => exact encB_of_keys (keys_of_funct3Mask h)
  | sb | sh | sw => exact encS_of_keys (keys_of_funct3Mask h)
  | slli | srli | srai | add | sub | sll | slt | sltu | xor | srl | sra | or | and =>
    exact encR_of_keys (keys_of_funct7Mask h)
  | ecall | ebreak => exact encI_of_keys_funct12 (keys_of_funct12Mask h)

/-- Settles O3: a word that decodes is an encoding, which matches its row; a word that matches a row is the encoding of the
row's instruction with the word's own fields, and so decodes to it. -/
theorem decodeAgreesWithOpcodeTable : Obligations.DecodeAgreesWithOpcodeTable := by
  refine ⟨fun w i h => ?_, fun w i h => ⟨i.withOperandsOf w, ?_, tableRow_withOperandsOf⟩⟩
  · obtain ⟨-, rfl⟩ := decode_ok h
    exact encode_matches_tableRow
  · calc decode w
      _ = decode (encode (i.withOperandsOf w)) := by rw [encode_withOperandsOf h]
      _ = .ok (i.withOperandsOf w) := decode_encode wf_withOperandsOf

/-! ### Immediates keep their values -/

variable {n : Nat} {v : Int}

theorem toInt_sext_ofInt (h0 : 0 < n) (h32 : n ≤ 32) (hlo : -2 ^ (n - 1) ≤ v) (hhi : v < 2 ^ (n - 1)) :
    (Machine.sext (BitVec.ofInt n v)).toInt = v :=
  (BitVec.toInt_signExtend_of_le h32).trans (BitVec.toInt_ofInt_eq_self h0 hlo hhi)

theorem getLsbD_zero_ofInt_of_even (h0 : 0 < n) (heven : v % 2 = 0) : (BitVec.ofInt n v).getLsbD 0 = false := by
  have hdvd : (2 : Int) ∣ (2 ^ n : Nat) := by exact_mod_cast dvd_pow_self 2 h0.ne'
  have hrem : v % (2 ^ n : Nat) % 2 = 0 := (Int.emod_emod_of_dvd v hdvd).trans heven
  have hnat : (v % (2 ^ n : Nat)).toNat % 2 = 0 := by omega
  rw [← BitVec.testBit_toNat, BitVec.toNat_ofInt, Nat.testBit_zero, hnat]
  rfl

/-- Settles O4: each layout gives its immediate field back (for B and J because the offset is even), and the field's sign
extension has the value the field was made from. -/
theorem immediatesRoundTrip : Obligations.ImmediatesRoundTrip := by
  refine ⟨?_, ?_, ?_, ?_⟩
  · intro v rs1 rd f3 op hlo hhi
    rw [immIOf_encI]
    exact toInt_sext_ofInt (by omega) (by omega) (by omega) (by omega)
  · intro v rs2 rs1 f3 op hlo hhi
    rw [immSOf_encS]
    exact toInt_sext_ofInt (by omega) (by omega) (by omega) (by omega)
  · intro v rs2 rs1 f3 op hlo hhi heven
    rw [offBOf_encB (h := getLsbD_zero_ofInt_of_even (by omega) heven)]
    exact toInt_sext_ofInt (by omega) (by omega) (by omega) (by omega)
  · intro v rd op hlo hhi heven
    rw [offJOf_encJ (h := getLsbD_zero_ofInt_of_even (by omega) heven)]
    exact toInt_sext_ofInt (by omega) (by omega) (by omega) (by omega)

end Sys2Proof
end

section
/-! PROOFS. The statements about the execution cycle: what a step runs, when it completes, the re-assertion of x0, and the
source's scenario from Construct to the first Step. -/

namespace Sys2Proof.Machine

variable {i : Instr} {s : State}

/-! ### The instruction a step runs -/

theorem onlyPc_reassertZero : OnlyPc s s.reassertZero :=
  ⟨fun _ => reassertZero_reg _ _, fun _ => rfl, ⟨rfl, rfl, rfl, rfl⟩⟩

/-- Settles O7: the fetch gives the four bytes at the pc or raises, and no read sees slot 0, which the re-assertion
clears. -/
theorem stepRunsDecodedInstruction : Obligations.StepRunsDecodedInstruction := by
  refine ⟨fun s i hs hr hdecode => ?_, fun t => ⟨onlyPc_reassertZero, reassertZero_pc t⟩, fun s hs hr => ?_⟩
  · rw [step_of_fetch hs (fetch_inRange hr) hdecode]
    cases exec i s <;> rfl
  · simp only [step_of_running hs, runCycle, fetch_outOfRange hr, raise]

/-! ### When a step completes -/

/-- An instruction completes unless its data access is out of range. -/
theorem exec_completes_iff : (∃ u, exec i s = .next u) ↔ i.accessInRange s := by
  have hshape := exec_shape i s
  generalize exec i s = result at hshape ⊢
  cases hshape with
  | register _ _ _ _ ha => exact iff_of_true ⟨_, rfl⟩ ha
  | pcOnly _ _ ha => exact iff_of_true ⟨_, rfl⟩ (by simp [Instr.accessInRange, ha])
  | store _ _ _ _ ha hr => exact iff_of_true ⟨_, rfl⟩ (by simpa [Instr.accessInRange, ha] using hr)
  | raised _ _ _ ha hr => exact iff_of_false (by simp) (by simpa [Instr.accessInRange, ha] using hr)

theorem fetch_ok_inRange {w : Word} (h : s.fetch = .ok w) : s.pc.toNat + 4 ≤ s.cfg.memSize := by
  by_contra hr
  rw [fetch_outOfRange (Nat.not_le.1 hr)] at h
  cases h

/-- Settles O9: a step that completes passed the fetch, the decoder and its own access, and where all three pass nothing
is left that could raise. -/
theorem stepCompletesExactlyWhenNothingRaises : Obligations.StepCompletesExactlyWhenNothingRaises := by
  refine fun s hs => ⟨fun ⟨t, ht⟩ => ?_, fun ⟨hr, i, hdecode, ha⟩ => ?_⟩
  · obtain ⟨-, w, i, u, hfetch, hdecode, hexec, -⟩ := step_next_cases ht
    exact ⟨fetch_ok_inRange hfetch, i, fetch_ok hfetch ▸ hdecode, exec_completes_iff.1 ⟨u, hexec⟩⟩
  · obtain ⟨u, hexec⟩ := exec_completes_iff.2 ha
    exact ⟨u.reassertZero, by rw [step_of_fetch hs (fetch_inRange hr) hdecode, hexec]; rfl⟩

/-! ### Register 0 -/

theorem reg_zero (s : State) : s.reg 0#5 = 0#32 := rfl

/-- Settles O14: whatever the instruction left in slot 0, the step ends by clearing it. -/
theorem zeroRegisterAfterEveryStep : Obligations.ZeroRegisterAfterEveryStep := by
  intro s t h
  obtain ⟨-, _, _, u, -, -, -, rfl⟩ := step_next_cases h
  exact ⟨reassertZero_slot u, reg_zero _⟩

/-! ### From Construct to the first Step -/

/-- Construct with admitted sizes gives a canonical memory of that size and its last address as the stack top, whatever
is drawn. -/
theorem construct_admitted {memSize stackSize : Int} (zeroFill : Bool) (draw : Draw)
    (h : 0 < stackSize ∧ stackSize ≤ memSize ∧ memSize < 2 ^ 32) :
    ∃ s, construct memSize stackSize zeroFill draw = .ok s ∧ s.mem.wf ∧ s.cfg.memSize = memSize.toNat ∧
      s.stackTop = BitVec.ofNat 32 (memSize.toNat - 1) := by
  refine ⟨_, if_pos h, ?_, rfl, rfl⟩
  cases zeroFill with
  | false => exact Memory.wf_copyIn Memory.wf_nil _
  | true => exact Memory.wf_nil

/-- Load of an admitted image puts byte `k` of it at address `k`, notes its length and keeps the rest of the bookkeeping. -/
theorem load_admitted {image : List Byte} (hm : s.mem.wf) (h : 0 < image.length ∧ image.length < s.cfg.memSize) :
    ∃ t, load s image = .ok t ∧ t.cfg = s.cfg ∧ t.stackTop = s.stackTop ∧ t.stackBottom = image.length ∧
      ∀ k (hk : k < image.length), t.byte k = image[k] := by
  refine ⟨_, if_pos h, rfl, rfl, rfl, fun k hk => ?_⟩
  calc Memory.byte (s.mem.copyIn 0 image) k
    _ = Memory.byte (s.mem.copyIn 0 image) (0 + k) := by rw [Nat.zero_add]
    _ = image[k] := Memory.byte_copyIn_inside hm hk

/-- After Reset the fetch gives the word at address 0. -/
theorem doReset_fetch (h : 4 ≤ s.cfg.memSize) :
    s.doReset.fetch = .ok (wordOfBytes (s.byte 0) (s.byte 1) (s.byte 2) (s.byte 3)) := fetch_inRange (s := s.doReset) h

theorem doReset_reg (s : State) (r : RegIdx) : s.doReset.reg r = if r = 2#5 then s.stackTop else 0#32 :=
  reg_of_resetRegs rfl

/-- Settles O57: the loaded word decodes to ADDI x2, x0, -80, which a core just reset runs from pc 0 and zero registers. -/
theorem endToEndScenario : Obligations.EndToEndScenario := by
  intro zeroFill draw
  obtain ⟨s, hconstruct, hm, hsize, htop⟩ :=
    construct_admitted (memSize := 1024) (stackSize := 512) zeroFill draw (by decide)
  obtain ⟨s', hload, hcfg, htop', hbottom, hbytes⟩ :=
    load_admitted (image := [0x13#8, 0x01#8, 0x00#8, 0xFB#8]) hm (by rw [hsize]; decide)
  have hfetch : s'.doReset.fetch = .ok (wordOfBytes 0x13#8 0x01#8 0x00#8 0xFB#8) := by
    rw [doReset_fetch (by rw [hcfg, hsize]; decide), hbytes 0 (by decide), hbytes 1 (by decide), hbytes 2 (by decide),
      hbytes 3 (by decide)]
    rfl
  have hdecode : decode (wordOfBytes 0x13#8 0x01#8 0x00#8 0xFB#8) = .ok (.addi 2#5 0#5 0xFB0#12) := by decide
  obtain ⟨u, hexec, hu⟩ : ∃ u, exec (.addi 2#5 0#5 0xFB0#12) s'.doReset = .next u ∧
      WroteRegister 2#5 (s'.doReset.reg 0#5 + immI 0xFB0#12) s'.doReset u := writeBack_completes
  refine ⟨s, s', u.reassertZero, hconstruct, hload, ?_, ?_, ?_, ?_, ?_, ?_, fun r hr => ?_⟩
  · rw [doReset_reg, if_pos rfl, htop', htop]; rfl
  · rw [step_of_fetch rfl hfetch hdecode, hexec]; rfl
  · rw [reassertZero_reg, hu.dest, reg_zero]; decide
  · rw [reassertZero_pc, hu.pc]; rfl
  · exact hu.frame.book.status
  · exact hu.frame.book.stackBottom.trans hbottom
  · rw [reassertZero_reg, hu.frame.regs r hr, doReset_reg, if_neg hr]

end Sys2Proof.Machine
end

section
/-! PROOFS. The statements about the upper immediates (spec/41_upper_immediate.md): the field shifted left by 12, alone and
added to the instruction's own address. -/

namespace Sys2Proof.Machine

/-- R87: placing the 20 bits above twelve zeros multiplies the field by 2^12. -/
theorem toNat_immU (imm20 : BitVec 20) : (immU imm20).toNat = imm20.toNat * 4096 := by
  rw [immU, BitVec.toNat_append, BitVec.toNat_ofNat, Nat.zero_mod, Nat.or_zero, Nat.shiftLeft_eq]

theorem immU_eq_ofNat (imm20 : BitVec 20) : immU imm20 = BitVec.ofNat 32 (imm20.toNat * 4096) := by
  rw [← toNat_immU, BitVec.ofNat_toNat, BitVec.setWidth_eq]

/-- R141: the address is that of the instruction itself and the sum wraps modulo 2^32. -/
theorem pcRelative_immU (s : State) (imm20 : BitVec 20) :
    pcRelative s (immU imm20) = BitVec.ofNat 32 (s.pc.toNat + imm20.toNat * 4096) := by
  rw [pcRelative, immU_eq_ofNat, BitVec.ofNat_add, BitVec.ofNat_toNat, BitVec.setWidth_eq]

theorem exec_lui (rd : RegIdx) (imm20 : BitVec 20) (s : State) :
    exec (.lui rd imm20) s = writeBack rd (BitVec.ofNat 32 (imm20.toNat * 4096)) s :=
  congrArg (writeBack rd · s) (immU_eq_ofNat imm20)

theorem exec_auipc (rd : RegIdx) (imm20 : BitVec 20) (s : State) :
    exec (.auipc rd imm20) s = writeBack rd (BitVec.ofNat 32 (s.pc.toNat + imm20.toNat * 4096)) s :=
  congrArg (writeBack rd · s) (pcRelative_immU s imm20)

/-- Settles O29: the word is the encoding of LUI, which writes back the field times 2^12. -/
theorem luiWritesUpperImmediate : Obligations.LuiWritesUpperImmediate := fun s rd imm20 =>
  ⟨decode_encode (i := .lui rd imm20) rfl, exec_lui rd imm20 s ▸ writeBack_completes⟩

/-- Settles O30: the word is the encoding of AUIPC, which writes back the wrapped sum of its address and the field
times 2^12. -/
theorem auipcAddsToItsOwnAddress : Obligations.AuipcAddsToItsOwnAddress := fun s rd imm20 =>
  ⟨decode_encode (i := .auipc rd imm20) rfl, exec_auipc rd imm20 s ▸ writeBack_completes⟩

end Sys2Proof.Machine
end

section
/-! PROOFS. The statements about the jumps (spec/42_jumps.md): the decoded word, the link, and the target as arithmetic on
the pc or on the old register. -/

namespace Sys2Proof.Machine

/-- R121: the instruction's own address plus a sign-extended offset of any width, modulo 2^32. -/
theorem pcRelative_sext (s : State) {n : Nat} (off : BitVec n) :
    pcRelative s (sext off) = BitVec.ofInt 32 (s.pc.toNat + off.toInt) := by
  calc pcRelative s (sext off)
    _ = s.pc + BitVec.ofInt 32 off.toInt := rfl
    _ = BitVec.ofInt 32 s.pc.toNat + BitVec.ofInt 32 off.toInt := by
      rw [BitVec.ofInt_natCast, BitVec.ofNat_toNat, BitVec.setWidth_eq]
    _ = BitVec.ofInt 32 (s.pc.toNat + off.toInt) := (BitVec.ofInt_add ..).symm

/-- Clearing bit 0 of a word rounds it down to an even value. -/
theorem and_clearBit0 (w : Word) : w &&& 0xFFFFFFFE#32 = BitVec.ofNat 32 (w.toNat / 2 * 2) := by
  have hshift : w &&& 0xFFFFFFFE#32 = w >>> 1 <<< 1 := by
    refine BitVec.eq_of_getLsbD_eq fun i hi => ?_
    rw [BitVec.getLsbD_and, BitVec.getLsbD_shiftLeft, BitVec.getLsbD_ushiftRight]
    interval_cases i <;> simp
  apply BitVec.eq_of_toNat_eq
  rw [hshift, BitVec.toNat_shiftLeft, BitVec.toNat_ushiftRight, BitVec.toNat_ofNat, Nat.shiftLeft_eq,
    Nat.shiftRight_eq_div_pow, pow_one]

theorem jalrTarget_eq_ofNat (s : State) (rs1 : RegIdx) (imm : BitVec 12) :
    jalrTarget s rs1 imm = BitVec.ofNat 32 ((s.reg rs1 + imm.signExtend 32).toNat / 2 * 2) :=
  and_clearBit0 (s.reg rs1 + imm.signExtend 32)

theorem exec_jal (rd : RegIdx) (off : BitVec 21) (s : State) :
    exec (.jal rd off) s = linkAndJump rd (BitVec.ofInt 32 (s.pc.toNat + off.toInt)) s :=
  congrArg (linkAndJump rd · s) (pcRelative_sext s off)

theorem exec_jalr (rd rs1 : RegIdx) (imm : BitVec 12) (s : State) : exec (.jalr rd rs1 imm) s =
    linkAndJump rd (BitVec.ofNat 32 ((s.reg rs1 + imm.signExtend 32).toNat / 2 * 2)) s :=
  congrArg (linkAndJump rd · s) (jalrTarget_eq_ofNat s rs1 imm)

/-- R96: opcode 0x67 has funct3 000 only. -/
theorem decode_encI_jalr_of_ne {imm : BitVec 12} {rs1 rd : RegIdx} {f3 : BitVec 3} (h : f3 ≠ 0b000#3) :
    decode (encI imm rs1 f3 rd 0x67#7) = .error (.funct3 f3) := by
  rw [decode_jalr (opcodeOf_encI ..), decodeJalr, funct3Of_encI, if_neg h]

/-- Settles O31: the word is the encoding of JAL, which links and goes to the wrapped sum of its address and the offset. -/
theorem jalLinksAndJumps : Obligations.JalLinksAndJumps := fun s rd off =>
  ⟨fun heven => decode_encode (i := .jal rd off) (beq_iff_eq.2 heven), exec_jal rd off s ▸ linkAndJump_completes⟩

/-- Settles O32: the word is the encoding of JALR, the one funct3 of its opcode; its target is formed from `s` before the
link is written, so rd = rs1 needs no case of its own, and clearing bit 0 rounds the target down to even. -/
theorem jalrLinksAndJumps : Obligations.JalrLinksAndJumps := fun s rd rs1 imm =>
  ⟨decode_encode (i := .jalr rd rs1 imm) rfl, fun _ => decode_encI_jalr_of_ne,
    exec_jalr rd rs1 imm s ▸ linkAndJump_completes⟩

end Sys2Proof.Machine
end

section
/-! PROOFS. The statements about the conditional branches (spec/43_branches.md): the decoded words, each condition as a
relation on the two registers, and the target as arithmetic on the pc. -/

namespace Sys2Proof.Machine

variable {s : State} {a b : Word} {off : BitVec 13} {taken : Bool} {c : Prop}

/-! ### The conditions as relations on words -/

theorem condEq_iff : condEq a b = true ↔ a = b := beq_iff_eq

theorem not_condEq_iff : (!condEq a b) = true ↔ a ≠ b := by
  rw [Bool.not_eq_true', ← Bool.not_eq_true, condEq_iff]

theorem condLt_iff : condLt a b = true ↔ a.toInt < b.toInt := decide_eq_true_iff

theorem not_condLt_iff : (!condLt a b) = true ↔ b.toInt ≤ a.toInt := by
  rw [Bool.not_eq_true', ← Bool.not_eq_true, condLt_iff, Int.not_lt]

theorem condLtu_iff : condLtu a b = true ↔ a.toNat < b.toNat := decide_eq_true_iff

theorem not_condLtu_iff : (!condLtu a b) = true ↔ b.toNat ≤ a.toNat := by
  rw [Bool.not_eq_true', ← Bool.not_eq_true, condLtu_iff, Nat.not_lt]

/-! ### What a branch does -/

/-- R160: a branch on `taken`, which holds exactly when `c` does, goes to its own address plus the offset where `c` holds
and to the next instruction where it does not, and changes nothing but the pc. -/
theorem branchIf_pcRelative (h : taken = true ↔ c) : ∃ t, branchIf taken (pcRelative s (immB off)) s = .next t ∧
    OnlyPc s t ∧ (c → t.pc = BitVec.ofInt 32 (s.pc.toNat + off.toInt)) ∧ (¬c → t.pc = s.pc + 4#32) := by
  obtain ⟨t, hnext, hpc, honly⟩ := branchIf_completes (s := s) (target := pcRelative s (immB off)) (taken := taken)
  refine ⟨t, hnext, honly, fun hc => ?_, fun hc => ?_⟩
  · calc t.pc
      _ = pcRelative s (sext off) := hpc.trans (if_pos (h.2 hc))
      _ = BitVec.ofInt 32 (s.pc.toNat + off.toInt) := pcRelative_sext s off
  · exact hpc.trans (if_neg (mt h.1 hc))

/-- Settles O33: the words are the encodings of BEQ and BNE, which branch on equal and on different bit patterns. -/
theorem equalityBranches : Obligations.EqualityBranches := fun _ rs1 rs2 off =>
  ⟨fun heven => ⟨decode_encode (i := .beq rs1 rs2 off) (beq_iff_eq.2 heven),
      decode_encode (i := .bne rs1 rs2 off) (beq_iff_eq.2 heven)⟩,
    branchIf_pcRelative condEq_iff, branchIf_pcRelative not_condEq_iff⟩

/-- Settles O34: the words are the encodings of BLT and BGE, whose conditions are the signed order and its negation. -/
theorem signedBranches : Obligations.SignedBranches := fun _ rs1 rs2 off =>
  ⟨fun heven => ⟨decode_encode (i := .blt rs1 rs2 off) (beq_iff_eq.2 heven),
      decode_encode (i := .bge rs1 rs2 off) (beq_iff_eq.2 heven)⟩,
    branchIf_pcRelative condLt_iff, branchIf_pcRelative not_condLt_iff⟩

/-- Settles O35: the words are the encodings of BLTU and BGEU, whose conditions are the unsigned order and its negation. -/
theorem unsignedBranches : Obligations.UnsignedBranches := fun _ rs1 rs2 off =>
  ⟨fun heven => ⟨decode_encode (i := .bltu rs1 rs2 off) (beq_iff_eq.2 heven),
      decode_encode (i := .bgeu rs1 rs2 off) (beq_iff_eq.2 heven)⟩,
    branchIf_pcRelative condLtu_iff, branchIf_pcRelative not_condLtu_iff⟩

end Sys2Proof.Machine
end

section
/-! PROOFS. The statements about the loads (spec/44_loads.md): the decoded words, the value read at each width, extended
by its sign or by zeros, and the error where the access is out of range. -/

namespace Sys2Proof.Machine

variable {s : State} {rd : RegIdx} {addr v : Word} {n : Nat}

/-! ### The two extensions as integers (00_scope.md R11) -/

theorem sext_eq_ofInt (b : BitVec n) : sext b = BitVec.ofInt 32 b.toInt := rfl

theorem zext_eq_ofNat (b : BitVec n) : zext b = BitVec.ofNat 32 b.toNat := (BitVec.ofNat_toNat 32 b).symm

theorem zext_word (w : Word) : zext w = w := BitVec.setWidth_eq w

/-! ### What a load does -/

/-- R185: a load whose read answers `b` writes `b` widened, and changes nothing but `rd` and the pc. -/
theorem loadTo_completes {widen : BitVec (8 * n) → Word} {b : BitVec (8 * n)} (h : s.memRead .load addr n = .ok b)
    (hv : widen b = v) : ∃ t, loadTo rd addr n widen s = .next t ∧ WroteRegister rd v s t := by
  have hload : loadTo rd addr n widen s = writeBack rd v s := by simp only [loadTo, h, hv]
  exact hload ▸ writeBack_completes

/-- Settles O36: the words are the encodings of LB and LBU, both loads of the one byte at the address, and the range
check comes before `rd` is looked at. -/
theorem byteLoads : Obligations.ByteLoads := by
  rintro s rd rs1 imm ea rfl
  exact ⟨decode_encode (i := .lb rd rs1 imm) rfl, decode_encode (i := .lbu rd rs1 imm) rfl,
    fun hr => ⟨loadTo_completes (memRead_one hr) (sext_eq_ofInt _), loadTo_completes (memRead_one hr) (zext_eq_ofNat _)⟩,
    fun hr => ⟨loadTo_outOfRange hr, loadTo_outOfRange hr⟩⟩

/-- Settles O37: the words are the encodings of LH and LHU, both loads of the two bytes from the address up. -/
theorem halfwordLoads : Obligations.HalfwordLoads := by
  rintro s rd rs1 imm ea rfl
  exact ⟨decode_encode (i := .lh rd rs1 imm) rfl, decode_encode (i := .lhu rd rs1 imm) rfl,
    fun hr => ⟨loadTo_completes (memRead_two hr) (sext_eq_ofInt _), loadTo_completes (memRead_two hr) (zext_eq_ofNat _)⟩,
    fun hr => ⟨loadTo_outOfRange hr, loadTo_outOfRange hr⟩⟩

/-- Settles O38: the word is the encoding of LW, a load of the four bytes from the address up. -/
theorem wordLoad : Obligations.WordLoad := by
  rintro s rd rs1 imm ea rfl
  exact ⟨decode_encode (i := .lw rd rs1 imm) rfl, fun hr => loadTo_completes (memRead_four hr) (zext_word _),
    loadTo_outOfRange⟩

end Sys2Proof.Machine
end

section
/-! PROOFS. The statements about the stores (spec/45_stores.md): the decoded words, the bytes written and no others, the
error where the access is out of range, and the value read back. -/

namespace Sys2Proof.Machine

variable {s t : State} {kind : AccessKind} {addr v : Word} {n : Nat}

/-- After a write that is answered, a read of the same bytes gives the low bits of the value. -/
theorem memRead_memWrite_self (hm : s.mem.wf) (h : s.memWrite addr n v = .ok t) :
    t.memRead kind addr n = .ok (v.extractLsb' 0 (8 * n)) := by
  obtain ⟨hr, ht⟩ := memWrite_ok h
  rw [memRead_inRange (memWrite_ok_cfg h ▸ hr), ht, Memory.readLE_writeLE_self hm]

/-- A store in range puts the low `n` bytes of `v` at the address, and changes nothing else but the pc. -/
theorem storeAt_completes (hm : s.mem.wf) (hr : addr.toNat + n ≤ s.cfg.memSize) :
    ∃ t, storeAt addr n v s = .next t ∧ Stored addr.toNat n v s t :=
  ⟨_, storeAt_inRange hr, stored_afterStore hm⟩

/-- Settles O25: the write was in range, so the read is, and it sees the bytes just written. -/
theorem storeThenLoadReturnsTheValue : Obligations.StoreThenLoadReturnsTheValue :=
  fun _ _ _ _ _ _ hm _ => memRead_memWrite_self hm

/-- Settles O39: the word is the encoding of SB, a store of one byte. -/
theorem byteStore : Obligations.ByteStore := by
  rintro s rs1 rs2 imm ea hm rfl
  exact ⟨decode_encode (i := .sb rs1 rs2 imm) rfl, storeAt_completes hm, storeAt_outOfRange⟩

/-- Settles O40: the word is the encoding of SH, a store of two bytes, whose range check covers both before either is
written. -/
theorem halfwordStore : Obligations.HalfwordStore := by
  rintro s rs1 rs2 imm ea hm rfl
  exact ⟨decode_encode (i := .sh rs1 rs2 imm) rfl, storeAt_completes hm, storeAt_outOfRange⟩

/-- Settles O41: the word is the encoding of SW, a store of four bytes. -/
theorem wordStore : Obligations.WordStore := by
  rintro s rs1 rs2 imm ea hm rfl
  exact ⟨decode_encode (i := .sw rs1 rs2 imm) rfl, storeAt_completes hm, storeAt_outOfRange⟩

end Sys2Proof.Machine
end

section
/-! PROOFS. The statements about the immediate ALU (spec/46_alu_immediate.md): the decoded words, the funct7 values that
name no shift, and each result as arithmetic or bit by bit. -/

namespace Sys2Proof.Machine

variable {s : State} {rd : RegIdx} {a b u v : Word} {k : Nat} {imm : BitVec 12}

/-! ### What a write-back leaves, the value in another form -/

theorem writeBack_completes_of_eq (hv : u = v) : ∃ t, writeBack rd u s = .next t ∧ WroteRegister rd v s t :=
  hv ▸ writeBack_completes

theorem writeBack_completes_with {p : Word → Prop} (hp : p u) :
    ∃ t v, writeBack rd u s = .next t ∧ WroteRegister rd v s t ∧ p v := by
  obtain ⟨t, hnext, hwrote⟩ := writeBack_completes (s := s) (rd := rd) (v := u)
  exact ⟨t, u, hnext, hwrote, hp⟩

/-! ### The sign-extended immediate (R83) -/

theorem toInt_immI (imm : BitVec 12) : (immI imm).toInt = imm.toInt := BitVec.toInt_signExtend_of_le (by decide)

/-- Bits 31:11 of the extended immediate are bit 11 of the field. -/
theorem getLsbD_immI (hk : k < 32) : (immI imm).getLsbD k = imm.getLsbD (min k 11) := by
  rw [immI, sext, BitVec.getLsbD_signExtend, decide_eq_true hk, Bool.true_and, BitVec.msb_eq_getLsbD_last]
  split
  · rw [min_eq_left (by omega)]
  · rw [min_eq_right (by omega)]

/-! ### The results as arithmetic -/

theorem add_immI_eq_ofInt (a : Word) (imm : BitVec 12) : a + immI imm = BitVec.ofInt 32 (a.toInt + imm.toInt) := by
  rw [BitVec.ofInt_add, BitVec.ofInt_toInt, immI, sext_eq_ofInt]

theorem boolWord_condLt : boolWord (condLt a b) = if a.toInt < b.toInt then 1#32 else 0#32 :=
  if_congr condLt_iff rfl rfl

theorem boolWord_condLtu : boolWord (condLtu a b) = if a.toNat < b.toNat then 1#32 else 0#32 :=
  if_congr condLtu_iff rfl rfl

theorem shiftLeft_eq_ofNat (a : Word) (n : Nat) : a <<< n = BitVec.ofNat 32 (a.toNat * 2 ^ n) := by
  apply BitVec.eq_of_toNat_eq
  rw [BitVec.toNat_shiftLeft, BitVec.toNat_ofNat, Nat.shiftLeft_eq]

theorem ushiftRight_eq_ofNat (a : Word) (n : Nat) : a >>> n = BitVec.ofNat 32 (a.toNat / 2 ^ n) := by
  rw [← Nat.shiftRight_eq_div_pow, ← BitVec.toNat_ushiftRight, BitVec.ofNat_toNat, BitVec.setWidth_eq]

/-- The shift that copies the sign divides the signed value and rounds down, as `/` on `Int` does for a positive
divisor. -/
theorem sshiftRight_eq_ofInt (a : Word) (n : Nat) : a.sshiftRight n = BitVec.ofInt 32 (a.toInt / 2 ^ n) := by
  rw [BitVec.sshiftRight, Int.shiftRight_eq_div_pow, Nat.cast_pow, Nat.cast_two]

/-! ### The funct7 values of the immediate shifts (R97) -/

theorem decode_encR_slli_of_ne {f7 : BitVec 7} {shamt : BitVec 5} {rs1 : RegIdx} (h : f7 ≠ 0b0000000#7) :
    decode (encR f7 shamt rs1 0b001#3 rd 0x13#7) = .error (.funct7 f7) := by
  rw [decode_opImm (opcodeOf_encR ..)]
  simp [decodeOpImm, h]

theorem decode_encR_shiftRight_of_ne {f7 : BitVec 7} {shamt : BitVec 5} {rs1 : RegIdx} (h : f7 ≠ 0b0000000#7)
    (h' : f7 ≠ 0b0100000#7) : decode (encR f7 shamt rs1 0b101#3 rd 0x13#7) = .error (.funct7 f7) := by
  rw [decode_opImm (opcodeOf_encR ..)]
  simp [decodeOpImm, h, h']

/-! ### The statements -/

/-- Settles O42: the word is the encoding of ADDI, whose wrapped sum is the integer sum of the two signed values,
narrowed. -/
theorem addImmediate : Obligations.AddImmediate := fun _ rd rs1 imm =>
  ⟨decode_encode (i := .addi rd rs1 imm) rfl, writeBack_completes_of_eq (add_immI_eq_ofInt _ imm)⟩

/-- Settles O43: the words are the encodings of SLTI and SLTIU; both compare with the extended immediate, whose signed
value is the field's own. -/
theorem setLessThanImmediate : Obligations.SetLessThanImmediate := fun _ rd rs1 imm =>
  ⟨decode_encode (i := .slti rd rs1 imm) rfl, decode_encode (i := .sltiu rd rs1 imm) rfl,
    writeBack_completes_of_eq (toInt_immI imm ▸ boolWord_condLt), writeBack_completes_of_eq boolWord_condLtu⟩

/-- Settles O44: the words are the encodings of XORI, ORI and ANDI, which combine the register bit by bit with the
extended immediate. -/
theorem logicalImmediate : Obligations.LogicalImmediate := fun _ rd rs1 imm =>
  ⟨decode_encode (i := .xori rd rs1 imm) rfl, decode_encode (i := .ori rd rs1 imm) rfl,
    decode_encode (i := .andi rd rs1 imm) rfl,
    writeBack_completes_with fun _ hk => getLsbD_immI hk ▸ BitVec.getLsbD_xor,
    writeBack_completes_with fun _ hk => getLsbD_immI hk ▸ BitVec.getLsbD_or,
    writeBack_completes_with fun _ hk => getLsbD_immI hk ▸ BitVec.getLsbD_and⟩

/-- Settles O45: the words are the encodings of the three shifts, every other funct7 of the two funct3 values names
none, and each shift is a product or a quotient by 2^shamt. -/
theorem shiftImmediate : Obligations.ShiftImmediate := fun _ rd rs1 shamt =>
  ⟨decode_encode (i := .slli rd rs1 shamt) rfl, decode_encode (i := .srli rd rs1 shamt) rfl,
    decode_encode (i := .srai rd rs1 shamt) rfl, fun _ => decode_encR_slli_of_ne,
    fun _ => decode_encR_shiftRight_of_ne, writeBack_completes_of_eq (shiftLeft_eq_ofNat ..),
    writeBack_completes_of_eq (ushiftRight_eq_ofNat ..), writeBack_completes_of_eq (sshiftRight_eq_ofInt ..)⟩

end Sys2Proof.Machine
end

section
/-! PROOFS. The statements about the register ALU (spec/47_alu_register.md): the decoded words, the funct7 values that
name no instruction of OP, and each result as arithmetic or bit by bit. The forms of a shift and of a comparison are those
of the immediate ALU. -/

namespace Sys2Proof.Machine

/-! ### The amount of a register shift (R240) -/

/-- The low 5 bits of a word are its value modulo 32. -/
theorem shiftAmountReg_eq_mod (v : Word) : shiftAmountReg v = v.toNat % 32 := BitVec.extractLsb'_toNat ..

/-! ### The difference as arithmetic -/

theorem sub_eq_ofInt (a b : Word) : a - b = BitVec.ofInt 32 (a.toInt - b.toInt) := by
  rw [Int.sub_eq_add_neg, BitVec.ofInt_add, BitVec.ofInt_neg, BitVec.ofInt_toInt, BitVec.ofInt_toInt,
    BitVec.sub_eq_add_neg]

/-! ### The funct7 values of OP (R97) -/

/-- Under funct7 0100000 the map lists the funct3 of SUB and of SRA only; under a funct7 other than this and 0 it lists
none. -/
theorem decode_encR_op_of_unlisted {f7 : BitVec 7} {f3 : BitVec 3} {rs2 rs1 rd : RegIdx} (h : f7 ≠ 0b0000000#7)
    (h' : ¬(f7 = 0b0100000#7 ∧ (f3 = 0b000#3 ∨ f3 = 0b101#3))) :
    decode (encR f7 rs2 rs1 f3 rd 0x33#7) = .error (.funct7 f7) := by
  rw [decode_op (opcodeOf_encR ..)]
  by_cases h20 : f7 = 0b0100000#7
  · obtain ⟨hsub, hsra⟩ := not_or.1 fun hf3 => h' ⟨h20, hf3⟩
    simp [decodeOp, h20, hsub, hsra]
  · simp [decodeOp, h, h20]

/-! ### The statements -/

/-- Settles O49: the words are the encodings of SLL, SRL and SRA, every funct7 that OP does not list names none, and each
shift is a product or a quotient by 2 to the power of the register modulo 32. -/
theorem shiftRegister : Obligations.ShiftRegister := fun s rd rs1 rs2 =>
  ⟨decode_encode (i := .sll rd rs1 rs2) rfl, decode_encode (i := .srl rd rs1 rs2) rfl,
    decode_encode (i := .sra rd rs1 rs2) rfl, fun _ _ => decode_encR_op_of_unlisted,
    shiftAmountReg_eq_mod (s.reg rs2) ▸ writeBack_completes_of_eq (shiftLeft_eq_ofNat ..),
    shiftAmountReg_eq_mod (s.reg rs2) ▸ writeBack_completes_of_eq (ushiftRight_eq_ofNat ..),
    shiftAmountReg_eq_mod (s.reg rs2) ▸ writeBack_completes_of_eq (sshiftRight_eq_ofInt ..)⟩

/-- Settles O46: the words are the encodings of ADD and SUB, whose wrapped results are the sum and the difference,
narrowed. -/
theorem addSubRegister : Obligations.AddSubRegister := fun _ rd rs1 rs2 =>
  ⟨decode_encode (i := .add rd rs1 rs2) rfl, decode_encode (i := .sub rd rs1 rs2) rfl,
    writeBack_completes_of_eq (BitVec.add_def ..), writeBack_completes_of_eq (sub_eq_ofInt ..)⟩

/-- Settles O47: the words are the encodings of SLT and SLTU, which write back the signed and the unsigned comparison as 0
or 1. -/
theorem setLessThanRegister : Obligations.SetLessThanRegister := fun _ rd rs1 rs2 =>
  ⟨decode_encode (i := .slt rd rs1 rs2) rfl, decode_encode (i := .sltu rd rs1 rs2) rfl,
    writeBack_completes_of_eq boolWord_condLt, writeBack_completes_of_eq boolWord_condLtu⟩

/-- Settles O48: the words are the encodings of XOR, OR and AND, which combine the two registers bit by bit. -/
theorem logicalRegister : Obligations.LogicalRegister := fun _ rd rs1 rs2 =>
  ⟨decode_encode (i := .xor rd rs1 rs2) rfl, decode_encode (i := .or rd rs1 rs2) rfl,
    decode_encode (i := .and rd rs1 rs2) rfl, writeBack_completes_with fun _ => BitVec.getLsbD_xor,
    writeBack_completes_with fun _ => BitVec.getLsbD_or, writeBack_completes_with fun _ => BitVec.getLsbD_and⟩

end Sys2Proof.Machine
end

section
/-! PROOFS. The decoder against the tables of used field values (spec/30_encoding.md R95 to R98): a word is rejected at the
level, and with the field, that the tables give, and the spec's example words decode as printed. -/

namespace Sys2Proof

variable {w : Word} {reason : DecodeReject}

/-- What a decoder's answer says against the word: the reason, or nothing if it is an instruction. -/
def reasonIn : Decoded → Option DecodeReject
  | .ok _ => none
  | .error reason => some reason

@[simp] theorem reasonIn_ok (i : Instr) : reasonIn (.ok i) = none := rfl

@[simp] theorem reasonIn_error (reason : DecodeReject) : reasonIn (.error reason) = some reason := rfl

theorem reasonIn_eq_some_iff {d : Decoded} : reasonIn d = some reason ↔ d = .error reason := by
  cases d with
  | ok => simp
  | error => simp

theorem reasonIn_eq_none_iff {d : Decoded} : reasonIn d = none ↔ ∃ i, d = .ok i := by
  cases d with
  | ok => simp
  | error => simp

@[simp] theorem reasonIn_ite {c : Prop} [Decidable c] {d d' : Decoded} :
    reasonIn (if c then d else d') = if c then reasonIn d else reasonIn d' := apply_ite ..

/-- The tables' answer in terms of the decoder's field extractors. -/
theorem rejectOf_eq_fields (w : Word) : rejectOf w =
    if opcodeOf w ∉ usedOpcodes then some (.opcode (opcodeOf w))
    else if funct3Of w ∉ usedFunct3 (opcodeOf w) then some (.funct3 (funct3Of w))
    else if usedFunct7 (opcodeOf w) (funct3Of w) (funct7Of w) = false then some (.funct7 (funct7Of w))
    else if opcodeOf w = 0x73#7 ∧ funct12Of w ∉ [0x000#12, 0x001#12] then some (.funct12 (funct12Of w))
    else none := rfl

/-- R96: where bits 14:12 are immediate bits, and in OP-IMM and OP, no funct3 is unused. -/
theorem mem_usedFunct3 {op : BitVec 7} (h : op ∈ [0x37#7, 0x17#7, 0x6F#7, 0x13#7, 0x33#7]) (f : BitVec 3) :
    f ∈ usedFunct3 op := by
  simp only [List.mem_cons, List.not_mem_nil, or_false] at h
  obtain rfl | rfl | rfl | rfl | rfl := h <;> revert f <;> decide

/-! ### The tables, opcode by opcode -/

theorem rejectOf_unusedOpcode (h : opcodeOf w ∉ usedOpcodes) : rejectOf w = some (.opcode (opcodeOf w)) := if_pos h

/-- An opcode that uses every funct3 leaves funct7 as the only key. -/
theorem rejectOf_funct7Only (h : opcodeOf w ∈ [0x37#7, 0x17#7, 0x6F#7, 0x13#7, 0x33#7]) : rejectOf w =
    if usedFunct7 (opcodeOf w) (funct3Of w) (funct7Of w) then none else some (.funct7 (funct7Of w)) := by
  have hop : opcodeOf w ∈ usedOpcodes := (by decide : _ ⊆ usedOpcodes) h
  have hf3 : funct3Of w ∈ usedFunct3 (opcodeOf w) := mem_usedFunct3 h _
  have hf12 : ¬(opcodeOf w = 0x73#7 ∧ funct12Of w ∉ [0x000#12, 0x001#12]) :=
    fun hkey => absurd (hkey.1 ▸ h) (by decide)
  rw [rejectOf_eq_fields, if_neg (not_not.2 hop), if_neg (not_not.2 hf3), if_neg hf12]
  cases usedFunct7 (opcodeOf w) (funct3Of w) (funct7Of w) <;> rfl

theorem rejectOf_opcodeOnly (h : opcodeOf w = 0x37#7 ∨ opcodeOf w = 0x17#7 ∨ opcodeOf w = 0x6F#7) : rejectOf w = none := by
  obtain h | h | h := h <;> simp [rejectOf_funct7Only, h, usedFunct7]

/-- JALR, BRANCH, LOAD, STORE and MISC-MEM are told apart by funct3 alone. -/
theorem rejectOf_funct3Only
    (h : opcodeOf w = 0x67#7 ∨ opcodeOf w = 0x63#7 ∨ opcodeOf w = 0x03#7 ∨ opcodeOf w = 0x23#7 ∨ opcodeOf w = 0x0F#7) :
    rejectOf w = if funct3Of w ∈ usedFunct3 (opcodeOf w) then none else some (.funct3 (funct3Of w)) := by
  obtain h | h | h | h | h := h <;> simp [rejectOf_eq_fields, h, usedOpcodes, usedFunct7]

/-! ### Each group of the decoder rejects what the tables reject -/

theorem reasonIn_decodeJalr (h : opcodeOf w = 0x67#7) : reasonIn (decodeJalr w) = rejectOf w := by
  simp [decodeJalr, rejectOf_funct3Only, h, usedFunct3]

theorem reasonIn_decodeMiscMem (h : opcodeOf w = 0x0F#7) : reasonIn (decodeMiscMem w) = rejectOf w := by
  simp [decodeMiscMem, rejectOf_funct3Only, h, usedFunct3]

theorem reasonIn_decodeBranch (h : opcodeOf w = 0x63#7) : reasonIn (decodeBranch w) = rejectOf w := by
  obtain hf3 | hf3 | hf3 | hf3 | hf3 | hf3 | hf3 | hf3 := funct3_values (funct3Of w) <;>
    simp [decodeBranch, rejectOf_funct3Only, h, usedFunct3, hf3]

theorem reasonIn_decodeLoad (h : opcodeOf w = 0x03#7) : reasonIn (decodeLoad w) = rejectOf w := by
  obtain hf3 | hf3 | hf3 | hf3 | hf3 | hf3 | hf3 | hf3 := funct3_values (funct3Of w) <;>
    simp [decodeLoad, rejectOf_funct3Only, h, usedFunct3, hf3]

theorem reasonIn_decodeStore (h : opcodeOf w = 0x23#7) : reasonIn (decodeStore w) = rejectOf w := by
  obtain hf3 | hf3 | hf3 | hf3 | hf3 | hf3 | hf3 | hf3 := funct3_values (funct3Of w) <;>
    simp [decodeStore, rejectOf_funct3Only, h, usedFunct3, hf3]

theorem reasonIn_decodeOpImm (h : opcodeOf w = 0x13#7) : reasonIn (decodeOpImm w) = rejectOf w := by
  obtain hf3 | hf3 | hf3 | hf3 | hf3 | hf3 | hf3 | hf3 := funct3_values (funct3Of w) <;>
    simp [decodeOpImm, rejectOf_funct7Only, h, usedFunct7, hf3, ite_or]

theorem reasonIn_decodeOp (h : opcodeOf w = 0x33#7) : reasonIn (decodeOp w) = rejectOf w := by
  obtain hf3 | hf3 | hf3 | hf3 | hf3 | hf3 | hf3 | hf3 := funct3_values (funct3Of w) <;>
    simp [decodeOp, rejectOf_funct7Only, h, usedFunct7, hf3, ite_or]

/-- SYSTEM: funct3 first, then all of funct12 (R98). -/
theorem reasonIn_decodeSystem (h : opcodeOf w = 0x73#7) : reasonIn (decodeSystem w) = rejectOf w := by
  by_cases hf3 : funct3Of w = 0b000#3
  · by_cases hf12 : funct12Of w = 0x000#12 <;>
      simp [decodeSystem, rejectOf_eq_fields, h, usedOpcodes, usedFunct3, usedFunct7, hf3, hf12]
  · simp [decodeSystem, rejectOf_eq_fields, h, usedOpcodes, usedFunct3, hf3]

/-- R100, R263: the decoder rejects exactly the words the tables reject, with the tables' reason. -/
theorem reasonIn_decode (w : Word) : reasonIn (decode w) = rejectOf w := by
  obtain ⟨hop, hg⟩ | ⟨hop, hg⟩ | ⟨hop, hg⟩ | ⟨hop, hg⟩ | ⟨hop, hg⟩ | ⟨hop, hg⟩ | ⟨hop, hg⟩ | ⟨hop, hg⟩ | ⟨hop, hg⟩ |
    ⟨hop, hg⟩ | ⟨hop, hg⟩ | ⟨hop, hg⟩ := decode_groups w <;> rw [hg]
  · exact (rejectOf_opcodeOnly (.inl hop)).symm
  · exact (rejectOf_opcodeOnly (.inr (.inl hop))).symm
  · exact (rejectOf_opcodeOnly (.inr (.inr hop))).symm
  · exact reasonIn_decodeJalr hop
  · exact reasonIn_decodeBranch hop
  · exact reasonIn_decodeLoad hop
  · exact reasonIn_decodeStore hop
  · exact reasonIn_decodeOpImm hop
  · exact reasonIn_decodeOp hop
  · exact reasonIn_decodeMiscMem hop
  · exact reasonIn_decodeSystem hop
  · exact (rejectOf_unusedOpcode hop).symm

theorem decode_error_iff : decode w = .error reason ↔ rejectOf w = some reason := by
  rw [← reasonIn_decode, reasonIn_eq_some_iff]

theorem decode_ok_iff : (∃ i, decode w = .ok i) ↔ rejectOf w = none := by
  rw [← reasonIn_decode, reasonIn_eq_none_iff]

/-- Settles O5: each word is evaluated by the decoder. -/
theorem decodeOfWordsFromTheSpec : Obligations.DecodeOfWordsFromTheSpec := by
  unfold Obligations.DecodeOfWordsFromTheSpec
  decide

end Sys2Proof
end

section
/-! PROOFS. The statements about the errors (spec/60_exceptions.md): which error a step raises and when, what it leaves, and
the three instructions of spec/48_system.md, which raise none. -/

namespace Sys2Proof.Machine

variable {s : State} {i : Instr} {e : Error}

/-! ### FENCE, ECALL and EBREAK -/

/-- R96: opcode 0x0F has funct3 000 only. -/
theorem decode_encI_miscMem_of_ne {imm : BitVec 12} {rs1 rd : RegIdx} {f3 : BitVec 3} (h : f3 ≠ 0b000#3) :
    decode (encI imm rs1 f3 rd 0x0F#7) = .error (.funct3 f3) := by
  rw [decode_miscMem (opcodeOf_encI ..), decodeMiscMem, funct3Of_encI, if_neg h]

/-- Settles O50: the words are the encodings of FENCE, ECALL and EBREAK, whose ignored fields are operands that `exec` does
not look at. -/
theorem systemInstructionsOnlyAdvance : Obligations.SystemInstructionsOnlyAdvance := fun _ rd rs1 imm =>
  ⟨decode_encode (i := .fence rd rs1 imm) rfl, fun _ => decode_encI_miscMem_of_ne,
    decode_encode (i := .ecall rd rs1) rfl, decode_encode (i := .ebreak rd rs1) rfl,
    advance_completes, advance_completes, advance_completes⟩

/-! ### The errors of a step -/

/-- The word at the pc, lowest address in bits 7:0. -/
abbrev State.wordAtPc (s : State) : Word :=
  s.byte (s.pc.toNat + 3) ++ s.byte (s.pc.toNat + 2) ++ s.byte (s.pc.toNat + 1) ++ s.byte s.pc.toNat

theorem access_kind_ne_fetch {kind : AccessKind} {addr : Word} {n : Nat} (h : i.access s = some (kind, addr, n)) :
    kind ≠ .fetch := by
  rintro rfl
  cases i <;> cases h

/-- An instruction raises exactly where its one data access is out of range. -/
theorem exec_raised_iff : exec i s = .fault (.raised e) ↔ ∃ kind addr n,
    i.access s = some (kind, addr, n) ∧ s.cfg.memSize < addr.toNat + n ∧ e = .addressOutOfRange kind addr n s.pc := by
  have hshape := exec_shape i s
  have hcompletes := exec_completes_iff (i := i) (s := s)
  generalize exec i s = result at hshape hcompletes ⊢
  cases hshape with
  | register | pcOnly | store =>
    refine iff_of_false nofun fun ⟨kind, addr, n, ha, hr, _⟩ => absurd (hcompletes.1 ⟨_, rfl⟩) ?_
    simpa [Instr.accessInRange, ha] using hr
  | raised kind addr n ha hr =>
    simp only [ha, Host.Outcome.fault.injEq, Fault.raised.injEq]
    refine ⟨fun he => ⟨kind, addr, n, rfl, hr, he.symm⟩, fun ⟨kind', addr', n', ha', _, he⟩ => ?_⟩
    cases ha'
    exact he.symm

theorem step_notReset (h : s.status = .notReset) : step s = .refused .notReset := by
  simp only [step, admittedStep, h]

theorem step_halted {e : Error} (h : s.status = .halted e) : step s = .fault (.haltedCore e) := by
  simp only [step, admittedStep, h]

/-- A step answers with an error on a running core only. -/
theorem step_raised_running (h : step s = .fault (.raised e)) : s.status = .running := by
  cases hs : s.status with
  | running => rfl
  | notReset => rw [step_notReset hs] at h; cases h
  | halted => rw [step_halted hs] at h; cases h

/-- The one refusal of a step is that of a core before its first Reset. -/
theorem step_refused {r : Refusal} (h : step s = .refused r) : r = .notReset ∧ s.status = .notReset := by
  cases hs : s.status with
  | running =>
    rw [step_of_running hs] at h
    obtain ⟨t, ht⟩ | ⟨e, he⟩ := runCycle_next_or_raised s
    · rw [ht] at h; cases h
    · rw [he] at h; cases h
  | notReset => rw [step_notReset hs] at h; cases h; exact ⟨rfl, rfl⟩
  | halted => rw [step_halted hs] at h; cases h

theorem step_of_fetch_outOfRange (hs : s.status = .running) (hr : s.cfg.memSize < s.pc.toNat + 4) :
    step s = .fault (.raised (.addressOutOfRange .fetch s.pc 4 s.pc)) := by
  simp only [step_of_running hs, runCycle, fetch_outOfRange hr, raise]

theorem step_of_decode_error {reason : DecodeReject} (hs : s.status = .running) (hr : s.pc.toNat + 4 ≤ s.cfg.memSize)
    (hd : decode s.wordAtPc = .error reason) : step s = .fault (.raised (.decodeError reason s.wordAtPc s.pc)) := by
  have hfetch : s.fetch = .ok s.wordAtPc := fetch_inRange hr
  simp only [step_of_running hs, runCycle, hfetch, hd, raise]

/-- Past the fetch and the decoder, a step raises what its instruction raises. -/
theorem step_raised_iff_of_decode (hs : s.status = .running) (hr : s.pc.toNat + 4 ≤ s.cfg.memSize)
    (hd : decode s.wordAtPc = .ok i) : step s = .fault (.raised e) ↔ exec i s = .fault (.raised e) := by
  rw [step_of_fetch hs (fetch_inRange hr) hd]
  cases exec i s <;> simp [onNext]

/-- R263: the three checks of a step in their order, each with the error it raises. -/
theorem step_raised_iff (hs : s.status = .running) : step s = .fault (.raised e) ↔
    (s.cfg.memSize < s.pc.toNat + 4 ∧ e = .addressOutOfRange .fetch s.pc 4 s.pc) ∨
    (s.pc.toNat + 4 ≤ s.cfg.memSize ∧ ∃ reason, decode s.wordAtPc = .error reason ∧
      e = .decodeError reason s.wordAtPc s.pc) ∨
    (s.pc.toNat + 4 ≤ s.cfg.memSize ∧ ∃ i kind addr n, decode s.wordAtPc = .ok i ∧ i.access s = some (kind, addr, n) ∧
      s.cfg.memSize < addr.toNat + n ∧ e = .addressOutOfRange kind addr n s.pc) := by
  by_cases hr : s.pc.toNat + 4 ≤ s.cfg.memSize
  · cases hd : decode s.wordAtPc with
    | error reason => simp [step_of_decode_error hs hr hd, hr, Nat.not_lt.2 hr, eq_comm]
    | ok i => simp [step_raised_iff_of_decode hs hr hd, exec_raised_iff, hr, Nat.not_lt.2 hr]
  · simp [step_of_fetch_outOfRange hs (Nat.not_le.1 hr), hr, Nat.not_le.1 hr, eq_comm]

/-- Settles O8: each check's error where the earlier checks pass, and the decoder's levels are those of the tables. -/
theorem errorsComeInOrder : Obligations.ErrorsComeInOrder := by
  refine ⟨fun s hs => ⟨step_of_fetch_outOfRange hs, fun reason hr hreject => ?_, fun i kind addr n hr hd ha hout => ?_⟩,
    fun w => ⟨fun _ => decode_error_iff, decode_ok_iff⟩⟩
  · exact step_of_decode_error hs hr (decode_error_iff.2 hreject)
  · exact (step_raised_iff hs).2 (.inr (.inr ⟨hr, i, kind, addr, n, hd, ha, hout, rfl⟩))

/-! ### The rows of the error table (R260) -/

theorem step_raised_decodeError_iff {reason : DecodeReject} {word pc : Word} (hs : s.status = .running) :
    step s = .fault (.raised (.decodeError reason word pc)) ↔
      s.pc.toNat + 4 ≤ s.cfg.memSize ∧ decode s.wordAtPc = .error reason ∧ word = s.wordAtPc ∧ pc = s.pc := by
  rw [step_raised_iff hs]
  simp

/-- A data access is a load or a store, so a fetch error comes from the fetch. -/
theorem step_raised_fetch_iff {addr pc : Word} {n : Nat} (hs : s.status = .running) :
    step s = .fault (.raised (.addressOutOfRange .fetch addr n pc)) ↔
      s.cfg.memSize < s.pc.toNat + 4 ∧ addr = s.pc ∧ n = 4 ∧ pc = s.pc := by
  rw [step_raised_iff hs]
  constructor
  · rintro (⟨hr, he⟩ | ⟨-, _, -, he⟩ | ⟨-, i, kind, _, _, -, ha, -, he⟩)
    · cases he; exact ⟨hr, rfl, rfl, rfl⟩
    · cases he
    · cases he; exact absurd rfl (access_kind_ne_fetch ha)
  · rintro ⟨hr, rfl, rfl, rfl⟩
    exact .inl ⟨hr, rfl⟩

theorem step_raised_access_iff {kind : AccessKind} {addr pc : Word} {n : Nat} (hs : s.status = .running)
    (hk : kind ≠ .fetch) : step s = .fault (.raised (.addressOutOfRange kind addr n pc)) ↔
      s.pc.toNat + 4 ≤ s.cfg.memSize ∧ s.cfg.memSize < addr.toNat + n ∧ pc = s.pc ∧
        ∃ i, decode s.wordAtPc = .ok i ∧ i.access s = some (kind, addr, n) := by
  rw [step_raised_iff hs]
  constructor
  · rintro (⟨-, he⟩ | ⟨-, _, -, he⟩ | ⟨hr, i, _, _, _, hd, ha, hout, he⟩)
    · cases he; exact absurd rfl hk
    · cases he
    · cases he; exact ⟨hr, hout, rfl, i, hd, ha⟩
  · rintro ⟨hr, hout, rfl, i, hd, ha⟩
    exact .inr (.inr ⟨hr, i, kind, addr, n, hd, ha, hout, rfl⟩)

/-- Settles O10: row by row, the checks of a step that can give the row's error. -/
theorem raisedErrorsAreTheListedOnes : Obligations.RaisedErrorsAreTheListedOnes := by
  refine ⟨fun s e hs => ?_, fun _ _ => step_raised_running, fun _ _ => step_refused⟩
  cases e with
  | decodeError => exact step_raised_decodeError_iff hs
  | addressOutOfRange kind =>
    cases kind with
    | fetch => exact step_raised_fetch_iff hs
    | load => exact step_raised_access_iff hs nofun
    | store => exact step_raised_access_iff hs nofun

/-! ### What an error leaves -/

/-- The pc an error records is that of the instruction that raised it. -/
theorem pcOf_raised (h : step s = .fault (.raised e)) : e.pcOf = s.pc := by
  obtain ⟨-, rfl⟩ | ⟨-, _, -, rfl⟩ | ⟨-, _, _, _, _, -, -, -, rfl⟩ := (step_raised_iff (step_raised_running h)).1 h <;> rfl

/-- Settles O11: the state after an error is the state before with the status halted, and the error records its pc. -/
theorem errorsArePrecise : Obligations.ErrorsArePrecise := by
  intro s e h
  rw [afterStep_of_raised h]
  exact ⟨fun _ => rfl, fun _ => rfl, rfl, (pcOf_raised h).trans (takeError_pc s e).symm, rfl, rfl, rfl, rfl⟩

/-- Settles O6: a word the tables reject is one the decoder rejects, and the error it raises is precise. -/
theorem unusedCodesStopTheRun : Obligations.UnusedCodesStopTheRun := by
  rintro s w reason hs hr rfl hreject
  have hstep := step_of_decode_error hs hr (decode_error_iff.2 hreject)
  obtain ⟨hregs, hbytes, hpc, -, hstatus, hrest⟩ := errorsArePrecise s _ hstep
  exact ⟨hstep, hstatus, hregs, hbytes, hpc, hrest⟩

end Sys2Proof.Machine
end

section
/-! PROOFS. The statements about the host's operations (spec/70_reset_and_hazards.md, 60_exceptions.md R280): Construct, Load,
Reset, a Step that does not complete, a run, and Inspect. -/

namespace Sys2Proof.Machine

variable {s t : State} {memSize stackSize : Int} {zeroFill : Bool} {draw : Draw} {image : List Byte} {r : RegIdx}

/-! ### Byte strings copied in and out -/

/-- A byte after a copy: the string's where it reaches, the old one elsewhere. -/
theorem Memory.byte_copyIn_zero {m : Memory} (h : m.wf) (bs : List Byte) (a : Nat) :
    Memory.byte (m.copyIn 0 bs) a = bs[a]?.getD (m.byte a) := by
  by_cases ha : a < bs.length
  · have hin := Memory.byte_copyIn_inside (a := 0) h ha
    rw [Nat.zero_add] at hin
    rw [hin, List.getElem?_eq_getElem ha, Option.getD_some]
  · rw [Memory.byte_copyIn_outside (.inr (by omega)), List.getElem?_eq_none (by omega), Option.getD_none]

theorem Memory.copyOut_eq_map (m : Memory) (a n : Nat) : m.copyOut a n = (List.range' a n).map m.byte := by
  induction n generalizing a with
  | zero => rfl
  | succ n ih => rw [Memory.copyOut, ih, List.range'_succ, List.map_cons]

/-! ### Construct -/

/-- What Construct asks of its sizes (R290). -/
abbrev SizesValid (memSize stackSize : Int) : Prop := 0 < stackSize ∧ stackSize ≤ memSize ∧ memSize < 2 ^ 32

/-- The state of R290's table. -/
def constructed (memSize stackSize : Int) (zeroFill : Bool) (draw : Draw) : State where
  cfg := { memSize := memSize.toNat, stackSize := stackSize.toNat, zeroFill := zeroFill }
  x := draw.regs.set 0 0#32
  pc := draw.pc
  mem := if zeroFill then [] else Memory.copyIn [] 0 (draw.initMem.take memSize.toNat)
  stackTop := BitVec.ofNat 32 (memSize.toNat - 1)
  stackBottom := draw.stackBottom
  status := .notReset

theorem construct_valid (h : SizesValid memSize stackSize) :
    construct memSize stackSize zeroFill draw = .ok (constructed memSize stackSize zeroFill draw) := if_pos h

theorem construct_invalid (h : ¬SizesValid memSize stackSize) :
    construct memSize stackSize zeroFill draw = .error .constructionError := if_neg h

theorem construct_ok (h : construct memSize stackSize zeroFill draw = .ok s) :
    SizesValid memSize stackSize ∧ s = constructed memSize stackSize zeroFill draw := by
  by_cases hv : SizesValid memSize stackSize
  · rw [construct_valid hv] at h
    exact ⟨hv, (Except.ok.inj h).symm⟩
  · rw [construct_invalid hv] at h
    cases h

theorem toNat_constructed_stackTop (zeroFill : Bool) (draw : Draw) (h : SizesValid memSize stackSize) :
    ((constructed memSize stackSize zeroFill draw).stackTop.toNat : Int) = memSize - 1 := by
  rw [constructed, BitVec.toNat_ofNat]
  omega

/-- The drawn registers, but for register 0. -/
theorem constructed_reg (h : r ≠ 0#5) :
    (constructed memSize stackSize zeroFill draw).reg r = draw.regs[r.toNat]'r.isLt := by
  rw [reg_eq_slot _ r h]
  exact Vector.getElem_set_ne (by omega) r.isLt (toNat_ne_of_ne h.symm).symm

theorem constructed_byte_zeroFill (a : Nat) : (constructed memSize stackSize true draw).byte a = 0#8 := rfl

/-- The drawn bytes, and zero where the drawn list is too short (log 17). -/
theorem constructed_byte_drawn {a : Nat} (ha : a < memSize.toNat) :
    (constructed memSize stackSize false draw).byte a = draw.initMem[a]?.getD 0#8 := by
  calc (constructed memSize stackSize false draw).byte a
    _ = (draw.initMem.take memSize.toNat)[a]?.getD 0#8 := Memory.byte_copyIn_zero Memory.wf_nil _ a
    _ = draw.initMem[a]?.getD 0#8 := by rw [List.getElem?_take_of_lt ha]

theorem constructed_mem_wf : (constructed memSize stackSize zeroFill draw).mem.wf := by
  cases zeroFill with
  | false => exact Memory.wf_copyIn Memory.wf_nil _
  | true => exact Memory.wf_nil

/-- The drawn bytes past `MEM_SIZE` are not used. -/
theorem constructed_mem_inRange : ∀ c ∈ (constructed memSize stackSize zeroFill draw).mem, c.1 < memSize.toNat := by
  intro c hc
  cases zeroFill with
  | true => cases hc
  | false =>
    obtain ⟨-, hlt⟩ | hnil := Memory.mem_copyIn hc
    · have := List.length_take_le memSize.toNat draw.initMem
      omega
    · cases hnil

theorem constructed_invariant (h : SizesValid memSize stackSize) :
    Invariant (constructed memSize stackSize zeroFill draw) where
  zeroSlot := by simp [constructed]
  memWf := constructed_mem_wf
  memInRange := constructed_mem_inRange
  cfgValid := by simp only [constructed, Config.Valid]; omega
  topFixed := by
    have htop := toNat_constructed_stackTop zeroFill draw h
    show _ = memSize.toNat
    omega

/-- Settles O51: the sizes decide, and each line of the table is a field of the constructed state. -/
theorem constructChecksItsSizes : Obligations.ConstructChecksItsSizes := by
  refine fun memSize stackSize zeroFill draw => ⟨fun h => ?_, fun h => construct_invalid (by omega)⟩
  refine ⟨_, construct_valid h, Int.toNat_of_nonneg (by omega), Int.toNat_of_nonneg (by omega), rfl,
    toNat_constructed_stackTop zeroFill draw h, ?_, ?_, rfl, fun r => constructed_reg, rfl, rfl, rfl⟩
  · rintro rfl a
    exact constructed_byte_zeroFill a
  · rintro rfl a
    exact constructed_byte_drawn

/-! ### Load -/

/-- The state after a Load (R292). -/
def State.loaded (s : State) (image : List Byte) : State :=
  { s with mem := s.mem.copyIn 0 image, stackBottom := image.length }

theorem load_valid (h : 0 < image.length ∧ image.length < s.cfg.memSize) : load s image = .ok (s.loaded image) := if_pos h

theorem load_invalid (h : ¬(0 < image.length ∧ image.length < s.cfg.memSize)) : load s image = .error .loadError := if_neg h

theorem load_ok (h : load s image = .ok t) :
    (0 < image.length ∧ image.length < s.cfg.memSize) ∧ t = s.loaded image := by
  by_cases hv : 0 < image.length ∧ image.length < s.cfg.memSize
  · rw [load_valid hv] at h
    exact ⟨hv, (Except.ok.inj h).symm⟩
  · rw [load_invalid hv] at h
    cases h

theorem load_ok_status (h : load s image = .ok t) : t.status = s.status := by
  obtain ⟨-, rfl⟩ := load_ok h
  rfl

theorem loaded_byte (h : s.mem.wf) (a : Nat) : (s.loaded image).byte a = image[a]?.getD (s.byte a) :=
  Memory.byte_copyIn_zero h image a

theorem loaded_byte_image {k : Nat} (h : s.mem.wf) (hk : k < image.length) : image[k]? = some ((s.loaded image).byte k) := by
  rw [loaded_byte h, List.getElem?_eq_getElem hk, Option.getD_some]

theorem loaded_byte_beyond {a : Nat} (ha : image.length ≤ a) : (s.loaded image).byte a = s.byte a :=
  Memory.byte_copyIn_outside (.inr (by omega))

theorem load_keepsInvariant (hinv : Invariant s) (h : load s image = .ok t) : Invariant t := by
  obtain ⟨⟨-, hlt⟩, rfl⟩ := load_ok h
  refine ⟨hinv.zeroSlot, Memory.wf_copyIn hinv.memWf _, fun c hc => ?_, hinv.cfgValid, hinv.topFixed⟩
  obtain ⟨-, hnew⟩ | hold := Memory.mem_copyIn hc
  · show c.1 < s.cfg.memSize
    omega
  · exact hinv.memInRange c hold

/-- Settles O52: the length decides, whatever the status; the copy covers the image's addresses and no others. -/
theorem loadCopiesTheImage : Obligations.LoadCopiesTheImage := by
  refine fun s image hm => ⟨fun hpos hlt => ?_, fun h => load_invalid (by omega)⟩
  exact ⟨_, load_valid ⟨hpos, hlt⟩, fun _ => loaded_byte_image hm, fun _ => loaded_byte_beyond, rfl, fun _ => rfl,
    rfl, rfl, rfl, rfl⟩

/-! ### The state after a Step, and a run -/

theorem afterStep_of_next (h : step s = .next t) : afterStep s = t := by
  simp only [afterStep, h]

/-- R31, R265: a core that is not running is not changed by a Step. -/
theorem afterStep_of_not_running (h : s.status ≠ .running) : afterStep s = s := by
  cases hs : s.status with
  | running => exact absurd hs h
  | notReset => simp only [afterStep, step_notReset hs]
  | halted => simp only [afterStep, step_halted hs]

theorem run_of_not_running (endOfRun : State → Bool) (fuel : Nat) (h : s.status ≠ .running) : run endOfRun fuel s = s := by
  cases fuel with
  | zero => rfl
  | succ => simp [run, h]

/-- Settles O13: neither a Step nor a run changes a core that is not running, and Load does not write the status. -/
theorem haltedCoreStaysHalted : Obligations.HaltedCoreStaysHalted := by
  intro s e hs
  have hstopped : s.status ≠ .running := by rw [hs]; nofun
  exact ⟨afterStep_of_not_running hstopped, fun _ _ => run_of_not_running _ _ hstopped,
    fun _ _ hload => (load_ok_status hload).trans hs, doReset_status s⟩

/-! ### Reset, and the invariant -/

theorem doReset_invariant (h : Invariant s) : Invariant s.doReset where
  zeroSlot := by simp [resetRegs]
  memWf := h.memWf
  memInRange := h.memInRange
  cfgValid := h.cfgValid
  topFixed := h.topFixed

theorem takeError_invariant (e : Error) (h : Invariant s) : Invariant (s.takeError e) :=
  ⟨h.zeroSlot, h.memWf, h.memInRange, h.cfgValid, h.topFixed⟩

theorem afterStep_invariant (h : Invariant s) : Invariant (afterStep s) := by
  by_cases hs : s.status = .running
  · obtain ⟨t, ht⟩ | ⟨e, he⟩ := step_of_running hs ▸ runCycle_next_or_raised s
    · exact (afterStep_of_next ht).symm ▸ stepKeepsInvariant s t h ht
    · exact (afterStep_of_raised he).symm ▸ takeError_invariant e h
  · exact (afterStep_of_not_running hs).symm ▸ h

/-- Settles O17: operation by operation; a Step completes, raises, or is not admitted. -/
theorem hostOperationsKeepInvariant : Obligations.HostOperationsKeepInvariant := by
  refine ⟨fun _ _ _ _ s h => ?_, fun _ _ _ => load_keepsInvariant, fun _ => doReset_invariant,
    fun _ => afterStep_invariant⟩
  obtain ⟨hv, rfl⟩ := construct_ok h
  exact constructed_invariant hv

/-- Settles O53: the registers Reset leaves, with x2 the stack top; only the registers, the pc and the status are written,
and from fields that Reset keeps. -/
theorem resetSetsRegistersAndPc : Obligations.ResetSetsRegistersAndPc := by
  intro s
  have hx2 : s.doReset.reg 2#5 = s.stackTop := by rw [doReset_reg, if_pos rfl]
  refine ⟨fun r hr => by rw [doReset_reg, if_neg hr], hx2, fun hinv => ?_, rfl, rfl, fun _ => rfl, rfl, rfl, rfl, rfl,
    fun hs => ⟨congrArg _ (afterStep_of_not_running hs), fun _ _ => load_ok_status⟩⟩
  rw [hx2]
  exact Nat.eq_sub_of_add_eq hinv.topFixed

/-- Settles O54: the constructed state, loaded and reset, field by field; Load keeps `NotReset`. -/
theorem bootGivesTheStartState : Obligations.BootGivesTheStartState := by
  intro memSize stackSize zeroFill draw s s' image hconstruct hload
  obtain ⟨hv, rfl⟩ := construct_ok hconstruct
  obtain ⟨-, rfl⟩ := load_ok hload
  refine ⟨step_notReset rfl, step_notReset rfl, rfl, rfl, ?_, fun r hr => by rw [doReset_reg, if_neg hr],
    fun k => loaded_byte_image constructed_mem_wf, fun a => loaded_byte_beyond, ?_⟩
  · rw [doReset_reg, if_pos rfl]
    exact toNat_constructed_stackTop zeroFill draw hv
  · rintro rfl a ha
    exact (loaded_byte_beyond ha).trans (constructed_byte_zeroFill a)

/-! ### Inspect -/

theorem abiNames_length : abiNames.length = 32 := rfl

theorem inspect_regs_getElem? (s : State) (addr n : Nat) (r : RegIdx) :
    (inspect s addr n).1.regs[r.toNat]? = some (abiNames[r.toNat]'r.isLt, s.reg r) := by
  have hr : r.toNat < 32 := r.isLt
  simp only [inspect, List.getElem?_zip_eq_some]
  refine ⟨List.getElem?_eq_getElem _, ?_⟩
  simp [hr]

/-- Settles O55: the register list pairs each name with its register, and the bytes are those read one by one. -/
theorem inspectShowsTheState : Obligations.InspectShowsTheState := by
  refine ⟨rfl, fun s addr n => ⟨fun r => ⟨_, List.getElem?_eq_getElem r.isLt, inspect_regs_getElem? s addr n r⟩, ?_, rfl, rfl,
    fun hr => ⟨_, if_pos hr, ?_, fun k hk => ?_⟩, fun hr => if_neg (Nat.not_le.2 hr)⟩⟩
  · simp [inspect, abiNames_length]
  · simp [Memory.copyOut_eq_map]
  · simp [Memory.copyOut_eq_map, hk, State.byte]

/-! ### The idle loop -/

/-- A step that gives the state back can be taken any number of times. -/
theorem core_run_of_step_self {M : Host.Core} {u : M.State} (h : M.step u = .next u) (k : Nat) : M.run k u = .next u := by
  induction k with
  | zero => rfl
  | succ k ih => rw [Host.Core.run, h]; exact ih

/-- `jal x0, 0` links to the register that discards it and jumps to its own address. -/
theorem exec_jal_zero_zero (s : State) : exec (.jal 0#5 0#21) s = .next s := by
  rw [exec_jal]
  simp [linkAndJump, State.setPc]

/-- Settles O56: the word is `jal x0, 0`, which changes nothing, and the re-assertion finds slot 0 clear. -/
theorem idleLoopKeepsTheState : Obligations.IdleLoopKeepsTheState := by
  intro s hinv hs hr hword
  have hfetch : s.fetch = .ok 0x0000006F#32 := hword ▸ fetch_inRange hr
  have hdecode : decode 0x0000006F#32 = .ok (.jal 0#5 0#21) := by decide
  refine core_run_of_step_self (M := core) ?_
  calc step s
    _ = onNext State.reassertZero (exec (.jal 0#5 0#21) s) := step_of_fetch hs hfetch hdecode
    _ = .next s.reassertZero := by rw [exec_jal_zero_zero]; rfl
    _ = .next s := by rw [reassertZero_of_slot s hinv.zeroSlot]

end Sys2Proof.Machine
end
